-- ==== Sys2Proof/Word.lean ====
section
/-! DEFINITION. The two word types of the block: 64-bit registers (20_memory.md R40) and 8-bit command
words and TEXT bytes (30_encoding.md R60, 20_memory.md R41). -/

namespace Sys2Proof

/-- One whole REG location: 64 bits (20_memory.md R40, 00_scope.md R11). -/
abbrev Word := BitVec 64

/-- One TEXT location, or one command word: 8 bits (20_memory.md R41, 30_encoding.md R60). -/
abbrev Byte := BitVec 8

end Sys2Proof
end

