-- ==== Sys2Proof/Config.lean ====
section
/-! DEFINITION. What is fixed for the machine in its types. The spec leaves no parameter open
(00_scope.md R11) and no value of a completed access free (93_implementation_defined.md), so there is
no opaque constant here. The values of the field layouts, the clamp and the tables stand in
Machine/Operands.lean. -/

namespace Sys2Proof

/-- The number of bytes of the TEXT buffer (10_state.md R32, 00_scope.md R11). -/
abbrev Config.textBytes : Nat := 72

/-- The fixed descriptor of one precision (00_scope.md R9): "derived, not stored". -/
structure FieldLayout where
  /-- W: total width of the pattern. -/
  width : Nat
  /-- Sign bits. -/
  signBits : Nat
  /-- E: exponent bits. -/
  exponentBits : Nat
  /-- B: the bias. -/
  bias : Nat
  /-- F: stored mantissa bits. -/
  mantissaBits : Nat
  /-- Mantissa bytes shown (MLEN). -/
  mantissaBytes : Nat
  /-- The implicit-bit display mask in the top mantissa byte. -/
  implicitMark : Byte
  deriving DecidableEq, Repr

end Sys2Proof
end

