-- ==== Sys2Proof/Syntax.lean ====
section
/-! DEFINITION. The syntax: the four commands (30_encoding.md R67), the names of the REG map
(20_memory.md R40), and the host accesses a program for the block is a list of (30_encoding.md R74). -/

namespace Sys2Proof

/-- The document's precision tag (00_scope.md R3, 30_encoding.md R63): Single is the 32-bit layout,
Double the 64-bit layout. -/
inductive Precision where
  | single
  | double
  deriving DecidableEq, Repr

/-- The commands: one constructor per row of the opcode table (30_encoding.md R67). `len` is the
requested byteLength, a count (R64); `sep` is groupSeparators (R66). The ignored bits 7:2 of EXTS and
EXTD have no meaning (R69) and so no place here. -/
inductive Instr where
  /-- EXTS: extract Single fields (40_extract.md R81). -/
  | exts
  /-- EXTD: extract Double fields (40_extract.md R86). -/
  | extd
  /-- RNDH: render Hex (41_render.md R108). -/
  | rndh (prec : Precision) (len : Nat) (sep : Bool)
  /-- RNDB: render Binary (41_render.md R109). -/
  | rndb (prec : Precision) (len : Nat) (sep : Bool)
  deriving DecidableEq, Repr

/-- The mnemonics of the opcode table (30_encoding.md R67). -/
inductive Mnemonic where
  | EXTS
  | EXTD
  | RNDH
  | RNDB
  deriving DecidableEq, Repr

/-- The row of the opcode table a command belongs to (30_encoding.md R67). -/
def Instr.mnemonic : Instr → Mnemonic
  | .exts => .EXTS
  | .extd => .EXTD
  | .rndh _ _ _ => .RNDH
  | .rndb _ _ _ => .RNDB

/-- The eight locations of the REG space by name (20_memory.md R40). -/
inductive Reg where
  | pattern
  | status
  | sign
  | expRaw
  | expUnb
  | mant
  | textLen
  | cmd
  deriving DecidableEq, Repr

/-- One host access: what the host can do to the block (20_memory.md R57, 30_encoding.md R74). The
indices are the raw port indices, 3 bits for REG and 7 bits for TEXT (R40, R41), so no out-of-range
index can be written down. -/
inductive HostAccess where
  /-- `WR i, v`: write the 64-bit value v to REG index i. -/
  | write (i : BitVec 3) (v : Word)
  /-- `RD i`: read REG index i. -/
  | read (i : BitVec 3)
  /-- `RDT k`: read TEXT index k. -/
  | readText (k : BitVec 7)
  /-- `RESET`: apply reset. -/
  | reset
  deriving DecidableEq, Repr

/-- A value a host read returns (20_memory.md R57): 64 bits from REG, 8 bits from TEXT. -/
inductive HostValue where
  | reg (v : Word)
  | text (c : Byte)
  deriving DecidableEq, Repr

end Sys2Proof
end

