-- ==== Sys2Proof/WellFormed.lean ====
section
/-! DEFINITION. Which commands the command word can express: LEN is a 4-bit field, 0 to 15
(30_encoding.md R61, R64). Every other operand is a one-bit enumeration and cannot be malformed
(R63, R71). -/

namespace Sys2Proof

/-- The requested byteLength fits the LEN field (30_encoding.md R64; an assembler must refuse any other,
R72). -/
def lenFits (len : Nat) : Bool := decide (len < 16)

/-- A command is well formed when its LEN can be encoded. -/
def Instr.wellFormed : Instr → Bool
  | .exts => true
  | .extd => true
  | .rndh _ len _ => lenFits len
  | .rndb _ len _ => lenFits len

end Sys2Proof
end

