-- ==== Sys2Proof/Decode.lean ====
section
/-! DEFINITION. The command word: its fields (30_encoding.md R61), the decoder (R68), the opcode table as
rows of match and mask (R67), and the encoder (R72). A command is exactly one byte (R60, R70) and no byte
is illegal (R69), so the decoder is a total function that refuses nothing. -/

namespace Sys2Proof

/-- OP = cmd[0]: 0 extract, 1 render (30_encoding.md R62). -/
def cmdOp (w : Byte) : Bool := w.getLsbD 0

/-- PREC = cmd[1]: 0 Single, 1 Double (R63). -/
def cmdPrec (w : Byte) : Precision := if w.getLsbD 1 then .double else .single

/-- MODE = cmd[2]: 0 Hex, 1 Binary (R65). -/
def cmdMode (w : Byte) : Bool := w.getLsbD 2

/-- SEP = cmd[3]: groupSeparators (R66). -/
def cmdSep (w : Byte) : Bool := w.getLsbD 3

/-- LEN = cmd[7:4], unsigned, not scaled (R64). -/
def cmdLen (w : Byte) : Nat := (w.extractLsb 7 4).toNat

/-- The command a word stands for (30_encoding.md R68). -/
def decode (w : Byte) : Instr :=
  if cmdOp w then
    if cmdMode w then .rndb (cmdPrec w) (cmdLen w) (cmdSep w)
    else .rndh (cmdPrec w) (cmdLen w) (cmdSep w)
  else
    match cmdPrec w with
    | .single => .exts
    | .double => .extd

/-- One row of the opcode map: a word w selects the row when `w & mask = bits` (30_encoding.md R67). -/
structure OpcodeRow where
  mnemonic : Mnemonic
  bits : Byte
  mask : Byte
  deriving DecidableEq, Repr

/-- The opcode map (30_encoding.md R67). -/
def opcodeTable : List OpcodeRow :=
  [ { mnemonic := .EXTS, bits := 0x00, mask := 0x03 },
    { mnemonic := .EXTD, bits := 0x02, mask := 0x03 },
    { mnemonic := .RNDH, bits := 0x01, mask := 0x05 },
    { mnemonic := .RNDB, bits := 0x05, mask := 0x05 } ]

/-- Whether a word selects a row (30_encoding.md R67). -/
def OpcodeRow.selects (r : OpcodeRow) (w : Byte) : Bool := decide (w &&& r.mask = r.bits)

/-- The PREC bit of a precision (30_encoding.md R72: 0 for `S`, 1 for `D`). -/
def Precision.bit : Precision → Byte
  | .single => 0
  | .double => 1

/-- The SEP bit (30_encoding.md R72: 1 for `G`, 0 for `N`). -/
def sepBit (g : Bool) : Byte := if g then 1 else 0

/-- The word of a render command (30_encoding.md R72):
`(len << 4) | (g << 3) | (mode << 2) | (p << 1) | 1`. -/
def encodeRender (mode : Byte) (p : Precision) (len : Nat) (g : Bool) : Byte :=
  (BitVec.ofNat 8 len <<< 4) ||| (sepBit g <<< 3) ||| (mode <<< 2) ||| (p.bit <<< 1) ||| 1#8

/-- The word of a well-formed command (30_encoding.md R72; the ignored bits of EXTS and EXTD are 0). -/
def encode : Instr → Byte
  | .exts => 0x00
  | .extd => 0x02
  | .rndh p len g => encodeRender 0 p len g
  | .rndb p len g => encodeRender 1 p len g

/-- The command byte of a table word: the low `nbits` bits of w, every bit above them 0, and of those the
one byte a command has (30_encoding.md R60). -/
def tableByte (nbits w : Nat) : Byte := BitVec.ofNat 8 (w % 2 ^ nbits)

/-- The decoder on a word numbered as the opcode table numbers it. No word is refused (R69). -/
def decodeTableWord (nbits w : Nat) : Option Instr := some (decode (tableByte nbits w))

end Sys2Proof
end

