-- ==== Sys2Proof/Machine/State.lean ====
section
/-! DEFINITION. The state of the machine and the reasons a step can stop. `Block` is the architectural
state, exactly what 10_state.md R20 lists; `State` puts it beside the host's side of the port, which the
block needs in order to run at all (log 1). -/

namespace Sys2Proof.Machine

/-- The architectural state of the block (10_state.md R20). STATUS is held as its fields (R24) and read as
one word through `Block.status`. CMD is a port and holds nothing (R33). -/
structure Block where
  /-- PATTERN, REG 0 (R23). -/
  pattern : Word
  /-- STATUS[0]: PATTERN has been written since reset (R24). -/
  pv : Bool
  /-- STATUS[1]: an extract has completed since reset (R24). -/
  fv : Bool
  /-- STATUS[2]: a render has completed since reset (R24). -/
  tv : Bool
  /-- STATUS[3]: precision of the last extract (R24). -/
  fprec : Precision
  /-- STATUS[6:4]: mantissa bytes of the last extract (R24). -/
  mlen : BitVec 3
  /-- SIGN, REG 2 (R25). -/
  sign : Word
  /-- EXP_RAW, REG 3 (R26). -/
  expRaw : Word
  /-- EXP_UNB, REG 4, two's complement (R27). -/
  expUnb : Word
  /-- MANT, REG 5 (R28). -/
  mant : Word
  /-- TEXT_LEN, REG 6 (R30). -/
  textLen : Word
  /-- TEXT[0] to TEXT[71] (R32). -/
  text : Vector Byte Config.textBytes
  deriving DecidableEq, Repr

/-- The machine: the block, the accesses the host has still to make (next one first), and the values its
reads have returned (oldest first). The two lists are the host's (30_encoding.md R74, 20_memory.md R58),
held here so that a step is a function of the state. DESIGN CHOICE, log 1. -/
structure State where
  block : Block
  pending : List HostAccess
  observed : List HostValue
  deriving DecidableEq, Repr

/-- Which text location was read (60_exceptions.md R121, column "recorded": the index): TEXT_LEN, which is
REG index 6, or a TEXT index. -/
inductive TextUse where
  | textLen
  | text (k : BitVec 7)
  deriving DecidableEq, Repr

/-- The model faults: the rows of the table of 60_exceptions.md R121, which says that a model must fault on these
accesses; 10_state.md R31 and 20_memory.md R43, R45 say the same of the reads, R122 of a command. A run ends at the
first (20_memory.md R58). Safe: a stop, and nothing is written. -/
inductive Fault where
  /-- Code 1, UNWRITTEN_PATTERN: raised by a host read of PATTERN, or by a command, while PV = 0 (R121, R122, R43), with
  the access: the read, or the CMD write with its whole 64-bit value. Safe. -/
  | unwrittenPattern (access : HostAccess)
  /-- Code 2, UNWRITTEN_FIELDS: raised by a host read of SIGN, EXP_RAW, EXP_UNB or MANT while FV = 0 (R121, R31,
  R43), with the location. Safe. -/
  | unwrittenFields (r : Reg)
  /-- Code 3, UNWRITTEN_TEXT: raised by a host read of TEXT_LEN, or of TEXT index 0 to 71, while TV = 0 (R121,
  R31, R43, R45), with the location. Safe. -/
  | unwrittenText (use : TextUse)
  deriving DecidableEq, Repr

/-- The refusals. No instruction of this model is refused: every one has its meaning. -/
inductive Refusal where
  /-- Raised by `exec` for an instruction with no meaning yet, by its mnemonic. Safe. No arm raises it. -/
  | notModelled (mnemonic : String)
  deriving DecidableEq, Repr

/-- What one access answers. -/
abbrev Result := Host.Outcome State Fault Refusal

/-- The block after reset (10_state.md R36, 70_reset_and_hazards.md R140): STATUS is 0. The other registers
and TEXT hold no value in the spec; the model holds 0 in each, which no access can use before it is written.
DESIGN CHOICE, log 2. -/
def Block.reset : Block where
  pattern := 0
  pv := false
  fv := false
  tv := false
  fprec := .single
  mlen := 0
  sign := 0
  expRaw := 0
  expUnb := 0
  mant := 0
  textLen := 0
  text := Vector.replicate Config.textBytes 0

/-- The machine at power-on (70_reset_and_hazards.md R142): the block in reset, the host about to issue
nothing and having read nothing (log 1). -/
def State.reset : State where
  block := Block.reset
  pending := []
  observed := []

end Sys2Proof.Machine
end

