-- ==== Sys2Proof/Machine/Operands.lean ====
section
/-! DEFINITION. The operands of the commands and the pure functions over them: the field layouts
(00_scope.md R9), bytes of a value (R14), the source pattern and the byte count of a render
(41_render.md R101, R102), the digit, separator and character tables (R105 to R107), the rendered string
(R103), and the REG map (20_memory.md R40). -/

namespace Sys2Proof.Machine

/-- The field layout of a precision (00_scope.md R9). -/
def layout : Precision → FieldLayout
  | .single =>
    { width := 32, signBits := 1, exponentBits := 8, bias := 127, mantissaBits := 23,
      mantissaBytes := 3, implicitMark := 0x80 }
  | .double =>
    { width := 64, signBits := 1, exponentBits := 11, bias := 1023, mantissaBits := 52,
      mantissaBytes := 7, implicitMark := 0x10 }

/-- The REG map (20_memory.md R40): the location at a 3-bit index. -/
def regAt (i : BitVec 3) : Reg :=
  match i.toNat with
  | 0 => .pattern
  | 1 => .status
  | 2 => .sign
  | 3 => .expRaw
  | 4 => .expUnb
  | 5 => .mant
  | 6 => .textLen
  | _ => .cmd

/-- The index of a location (20_memory.md R40). -/
def regIndex : Reg → BitVec 3
  | .pattern => 0
  | .status => 1
  | .sign => 2
  | .expRaw => 3
  | .expUnb => 4
  | .mant => 5
  | .textLen => 6
  | .cmd => 7

/-- Byte p of a 64-bit value, `v[8p+7:8p]` (00_scope.md R14). -/
def byteAt (v : Word) (p : Nat) : Byte := v.extractLsb' (8 * p) 8

/-- The exact difference exponentRaw − bias as a 12-bit two's-complement number, sign-extended to 64 bits
(40_extract.md R81, R86, R92). -/
def unbias (p : Precision) (e : BitVec 12) : Word :=
  (e - BitVec.ofNat 12 (layout p).bias).signExtend 64

/-- The source pattern of a render (41_render.md R101): all of PATTERN, or its low half widened with
zeros. -/
def renderSource (p : Precision) (pattern : Word) : Word :=
  match p with
  | .single => (pattern.extractLsb 31 0).setWidth 64
  | .double => pattern.extractLsb 63 0

/-- The byte count n = min(LEN, 8) (41_render.md R102, 00_scope.md R10). -/
def clampLen (len : Nat) : Nat := min len 8

/-- HEX(d): the uppercase hexadecimal digit (41_render.md R106). -/
def hexDigit (d : BitVec 4) : Char :=
  match d.toNat with
  | 0 => '0'
  | 1 => '1'
  | 2 => '2'
  | 3 => '3'
  | 4 => '4'
  | 5 => '5'
  | 6 => '6'
  | 7 => '7'
  | 8 => '8'
  | 9 => '9'
  | 10 => 'A'
  | 11 => 'B'
  | 12 => 'C'
  | 13 => 'D'
  | 14 => 'E'
  | _ => 'F'

/-- BIT(b) (41_render.md R106). -/
def bitDigit (b : Bool) : Char := if b then '1' else '0'

/-- SEPT[p mod 4]: the separator emitted after the unit of byte position p (41_render.md R105). -/
def separator (p : Nat) : Char :=
  match p % 4 with
  | 0 => ' '
  | 1 => ':'
  | 2 => ','
  | _ => ':'

/-- The unit of one byte in Hex mode: high nibble first (41_render.md R106). -/
def hexUnit (b : Byte) : List Char := [hexDigit (b.extractLsb 7 4), hexDigit (b.extractLsb 3 0)]

/-- The unit of one byte in Binary mode: most significant bit first (41_render.md R106). -/
def binUnit (b : Byte) : List Char :=
  [bitDigit (b.getLsbD 7), bitDigit (b.getLsbD 6), bitDigit (b.getLsbD 5), bitDigit (b.getLsbD 4),
   bitDigit (b.getLsbD 3), bitDigit (b.getLsbD 2), bitDigit (b.getLsbD 1), bitDigit (b.getLsbD 0)]

/-- The separator after byte position p: none after position 0, and none without SEP (41_render.md R105). -/
def separatorAfter (sep : Bool) (p : Nat) : List Char :=
  if sep && p != 0 then [separator p] else []

/-- The string of the n low bytes of src, most significant of them first (41_render.md R103, R108, R109). -/
def renderString (unit : Byte → List Char) (sep : Bool) (src : Word) : Nat → List Char
  | 0 => []
  | p + 1 => unit (byteAt src p) ++ separatorAfter sep p ++ renderString unit sep src p

/-- code(c): the 8-bit ASCII code of a character (41_render.md R107). -/
def charCode (c : Char) : Byte := BitVec.ofNat 8 c.toNat

/-- The TEXT buffer that holds a string: one code per byte from TEXT[0], then 0x00 to TEXT[71]
(41_render.md R104). -/
def textOf (str : List Char) : Vector Byte Config.textBytes :=
  Vector.ofFn fun k => (str.map charCode).getD k.val 0

/-- TEXT at an index: TEXT[k] for k ≤ 71, and 0x00 where no storage backs the index (20_memory.md R41). -/
def Block.textAt (b : Block) (k : Nat) : Byte := b.text.getD k 0

/-- EXP_HI = EXP_RAW[10:8] (10_state.md R26). -/
def Block.expHi (b : Block) : BitVec 3 := b.expRaw.extractLsb 10 8

/-- EXP_LO8 = EXP_RAW[7:0] (10_state.md R26). -/
def Block.expLo8 (b : Block) : Byte := b.expRaw.extractLsb 7 0

/-- mantissaBytes: the MLEN low bytes of MANT, most significant first (10_state.md R29). -/
def Block.mantissaBytes (b : Block) : List Byte :=
  (List.range b.mlen.toNat).map fun j => byteAt b.mant (b.mlen.toNat - 1 - j)

end Sys2Proof.Machine
end

