-- ==== Sys2Proof/Machine/Flags.lean ====
section
/-! DEFINITION. The STATUS register (10_state.md R24): its fields as one word, and what each operation
writes in it (R37). There are no other flags (R34). -/

namespace Sys2Proof.Machine

/-- The FPREC bit of a precision: 0 Single, 1 Double (10_state.md R24). -/
def fprecBit : Precision → Bool
  | .single => false
  | .double => true

/-- STATUS read as a word (10_state.md R24): bits 63:7 reserved and 0, then MLEN, FPREC, TV, FV, PV. -/
def Block.status (b : Block) : Word :=
  0#57 ++ b.mlen ++ BitVec.ofBool (fprecBit b.fprec) ++ BitVec.ofBool b.tv ++ BitVec.ofBool b.fv ++
    BitVec.ofBool b.pv

/-- A host write of PATTERN sets PV (10_state.md R24). -/
def Block.setPatternValid (b : Block) : Block := { b with pv := true }

/-- An extract sets FV, FPREC and MLEN (40_extract.md R81, R86). -/
def Block.setExtractFlags (p : Precision) (b : Block) : Block :=
  { b with fv := true, fprec := p, mlen := BitVec.ofNat 3 (layout p).mantissaBytes }

/-- A render sets TV (41_render.md R104). -/
def Block.setRenderFlag (b : Block) : Block := { b with tv := true }

end Sys2Proof.Machine
end

