-- ==== Sys2Proof/Machine/Ops.lean ====
section
/-! DEFINITION. The named operations over the block: the writes of the write matrix (10_state.md R37), the
host port's reads of REG and TEXT (20_memory.md R43, R45), reset (70_reset_and_hazards.md R140), and the
model fault (60_exceptions.md R121). The block takes no exception and returns from none (R120, R126, R127):
the model fault is the only stop, and it is raised before anything is written (R122). -/

namespace Sys2Proof.Machine

/-- DecodedFields as an extract computes them (00_scope.md R18). -/
structure Fields where
  sign : Word
  expRaw : Word
  expUnb : Word
  mant : Word
  deriving DecidableEq, Repr

/-- Host write of PATTERN: PATTERN and PV, nothing else (20_memory.md R44, 10_state.md R37). -/
def Block.writePattern (v : Word) (b : Block) : Block :=
  { b with pattern := v }.setPatternValid

/-- An extract's writes: SIGN, EXP_RAW, EXP_UNB, MANT, FV, FPREC, MLEN, nothing else (10_state.md R37). -/
def Block.writeFields (p : Precision) (f : Fields) (b : Block) : Block :=
  { b with sign := f.sign, expRaw := f.expRaw, expUnb := f.expUnb, mant := f.mant }.setExtractFlags p

/-- A render's writes: TEXT[0..71], TEXT_LEN, TV, nothing else (41_render.md R104, 10_state.md R37). -/
def Block.writeText (str : List Char) (b : Block) : Block :=
  { b with text := textOf str, textLen := BitVec.ofNat 64 str.length }.setRenderFlag

/-- `raise ModelFault(f)` (60_exceptions.md R121): the run stops and nothing is written. -/
def raiseModelFault (f : Fault) : Result := .fault f

/-- The code of a model fault (60_exceptions.md R121). -/
def Fault.code : Fault → Nat
  | .unwrittenPattern _ => 1
  | .unwrittenFields _ => 2
  | .unwrittenText _ => 3

/-- A model fault as the record of access a: UNWRITTEN_PATTERN records the access, the other two the index they
have (60_exceptions.md R121). -/
def Fault.recordAccess (a : HostAccess) : Fault → Fault
  | .unwrittenPattern _ => .unwrittenPattern a
  | .unwrittenFields r => .unwrittenFields r
  | .unwrittenText u => .unwrittenText u

/-- What access a answers when it answers as r does: a model fault of r is recorded as a's (60_exceptions.md R121). -/
def recordAccess (a : HostAccess) : Result → Result
  | .next s => .next s
  | .fault f => .fault (f.recordAccess a)
  | .refused r => .refused r

/-- A CMD write of a command word (30_encoding.md R74: a command stands for `WR 7, <encoding>`). -/
def cmdWrite (w : Byte) : HostAccess := .write (regIndex .cmd) (w.setWidth 64)

/-- How every command runs (30_encoding.md R68, 60_exceptions.md R122, R123): while PV = 0 it faults before it
writes anything; otherwise it completes as one atomic change of the block (70_reset_and_hazards.md R146). The fault
records the CMD write that the command stands for (R74); the host port records the access that issued it (log 5). -/
def runCommand (i : Instr) (effect : Block → Block) (s : State) : Result :=
  if s.block.pv then .next { s with block := effect s.block }
  else raiseModelFault (.unwrittenPattern (cmdWrite (encode i)))

/-- Host read of a REG location (20_memory.md R43). CMD and the reserved STATUS bits read as 0. -/
def readReg (b : Block) : Reg → Except Fault Word
  | .pattern => if b.pv then .ok b.pattern else .error (.unwrittenPattern (.read (regIndex .pattern)))
  | .status => .ok b.status
  | .sign => if b.fv then .ok b.sign else .error (.unwrittenFields .sign)
  | .expRaw => if b.fv then .ok b.expRaw else .error (.unwrittenFields .expRaw)
  | .expUnb => if b.fv then .ok b.expUnb else .error (.unwrittenFields .expUnb)
  | .mant => if b.fv then .ok b.mant else .error (.unwrittenFields .mant)
  | .textLen => if b.tv then .ok b.textLen else .error (.unwrittenText .textLen)
  | .cmd => .ok 0

/-- Host read of a TEXT index (20_memory.md R45): an index with no storage reads as 0x00 at any time. -/
def readText (b : Block) (k : BitVec 7) : Except Fault Byte :=
  if k.toNat < Config.textBytes then
    if b.tv then .ok (b.textAt k.toNat) else .error (.unwrittenText (.text k))
  else .ok 0

/-- A read returned a value: the host has it, the block is as before (20_memory.md R50, R58). -/
def State.observe (x : HostValue) (s : State) : State := { s with observed := s.observed ++ [x] }

/-- Reset (70_reset_and_hazards.md R140): every piece of the block's state, and nothing of the host's (log 6). -/
def State.resetBlock (s : State) : State := { s with block := Block.reset }

end Sys2Proof.Machine
end

