-- ==== Sys2Proof/Machine/Extract.lean ====
section
/-! DEFINITION. The extract commands EXTS and EXTD (40_extract.md R80 to R94). -/

namespace Sys2Proof.Machine

/-- The fields of a Single pattern b = PATTERN[31:0] (40_extract.md R81). -/
def singleFields (pattern : Word) : Fields :=
  let b : BitVec 32 := pattern.extractLsb 31 0
  { sign := (b.extractLsb 31 31).setWidth 64
    expRaw := (b.extractLsb 30 23).setWidth 64
    expUnb := unbias .single ((b.extractLsb 30 23).setWidth 12)
    mant := (0x800000#24 ||| (b.extractLsb 22 0).setWidth 24).setWidth 64 }

/-- The 11-bit exponent of a Double pattern, put together from its two display groups top3 and low8
(40_extract.md R86, R88). -/
def doubleExponent (b : BitVec 64) : BitVec 11 :=
  let top3 : BitVec 3 := b.extractLsb 62 60
  let low8 : BitVec 8 := b.extractLsb 59 52
  (top3.setWidth 11 <<< 8) ||| low8.setWidth 11

/-- The fields of a Double pattern b = PATTERN[63:0] (40_extract.md R86). -/
def doubleFields (pattern : Word) : Fields :=
  let b : BitVec 64 := pattern.extractLsb 63 0
  { sign := (b.extractLsb 63 63).setWidth 64
    expRaw := (doubleExponent b).setWidth 64
    expUnb := unbias .double ((doubleExponent b).setWidth 12)
    mant := ((1#53 <<< 52) ||| (b.extractLsb 51 0).setWidth 53).setWidth 64 }

/-- EXTS (40_extract.md R81). -/
def execExts (s : State) : Result :=
  runCommand .exts (fun b => b.writeFields .single (singleFields b.pattern)) s

/-- EXTD (40_extract.md R86). -/
def execExtd (s : State) : Result :=
  runCommand .extd (fun b => b.writeFields .double (doubleFields b.pattern)) s

end Sys2Proof.Machine
end

