-- ==== Sys2Proof/Machine/Render.lean ====
section
/-! DEFINITION. The render commands RNDH and RNDB (41_render.md R100 to R112). -/

namespace Sys2Proof.Machine

/-- RNDH (41_render.md R108). -/
def execRndh (prec : Precision) (len : Nat) (sep : Bool) (s : State) : Result :=
  runCommand (.rndh prec len sep)
    (fun b => b.writeText (renderString hexUnit sep (renderSource prec b.pattern) (clampLen len))) s

/-- RNDB (41_render.md R109). -/
def execRndb (prec : Precision) (len : Nat) (sep : Bool) (s : State) : Result :=
  runCommand (.rndb prec len sep)
    (fun b => b.writeText (renderString binUnit sep (renderSource prec b.pattern) (clampLen len))) s

end Sys2Proof.Machine
end

