-- ==== Sys2Proof/Machine/Dispatch.lean ====
section
/-! DEFINITION. The dispatch: one arm per command (30_encoding.md R67, R68). -/

namespace Sys2Proof.Machine

/-- Execute one decoded command (30_encoding.md R68). -/
def exec (i : Instr) (s : State) : Host.Outcome State Fault Refusal :=
  match i with
  | .exts => Sys2Proof.Machine.execExts s
  | .extd => Sys2Proof.Machine.execExtd s
  | .rndh prec len sep => Sys2Proof.Machine.execRndh prec len sep s
  | .rndb prec len sep => Sys2Proof.Machine.execRndb prec len sep s

end Sys2Proof.Machine
end

