-- ==== Sys2Proof/Machine/HostPort.lean ====
section
/-! DEFINITION. The host port: what one host access does (20_memory.md R43 to R46, R57). It stands apart from
Ops.lean because a write of CMD executes a command, and so needs `exec`. -/

namespace Sys2Proof.Machine

/-- The command word of a CMD write: bits 7:0 of the value, the rest ignored (10_state.md R33, 30_encoding.md R60). -/
def commandWord (v : Word) : Byte := v.extractLsb 7 0

/-- Host write of REG index i (20_memory.md R44): PATTERN is written, CMD executes, the read-only locations
ignore it. A model fault of the command is the fault of this write, and records it (60_exceptions.md R121, R126). -/
def hostWrite (i : BitVec 3) (v : Word) (s : State) : Result :=
  match regAt i with
  | .pattern => .next { s with block := s.block.writePattern v }
  | .cmd => recordAccess (.write i v) (exec (decode (commandWord v)) s)
  | .status => .next s
  | .sign => .next s
  | .expRaw => .next s
  | .expUnb => .next s
  | .mant => .next s
  | .textLen => .next s

/-- Host read of REG index i (20_memory.md R43). -/
def hostRead (i : BitVec 3) (s : State) : Result :=
  match readReg s.block (regAt i) with
  | .ok v => .next (s.observe (.reg v))
  | .error f => raiseModelFault f

/-- Host read of TEXT index k (20_memory.md R45). -/
def hostReadText (k : BitVec 7) (s : State) : Result :=
  match readText s.block k with
  | .ok c => .next (s.observe (.text c))
  | .error f => raiseModelFault f

/-- One host access (20_memory.md R57, 30_encoding.md R74). -/
def hostAccess (a : HostAccess) (s : State) : Result :=
  match a with
  | .write i v => hostWrite i v s
  | .read i => hostRead i s
  | .readText k => hostReadText k s
  | .reset => .next s.resetBlock

/-- The next access is taken off the host's list before it is made (20_memory.md R52). With no access left the
block is idle and holds its state (60_exceptions.md R134). DEDUCED, log 4. -/
def stepHost (s : State) : Result :=
  match s.pending with
  | [] => .next s
  | a :: rest => hostAccess a { s with pending := rest }

/-- The state in which the host is about to write a command word to CMD. A command runs only once PATTERN has been
written (70_reset_and_hazards.md R143), so PV is set; PATTERN keeps the value it holds. DESIGN CHOICE, log 3. -/
def placeCommand (w : Byte) (s : State) : State :=
  { s with block := s.block.setPatternValid, pending := cmdWrite w :: s.pending }

end Sys2Proof.Machine
end

