-- ==== Sys2Proof/Machine/Step.lean ====
section
/-! DEFINITION. One step of the machine is one host access (70_reset_and_hazards.md R146, R149). -/

namespace Sys2Proof.Machine

/-- One step: the host's next access (20_memory.md R52, R58). -/
def step (s : State) : Host.Outcome State Fault Refusal := stepHost s

/-- s with the command of a table word placed where the next step finds it: the head of the host's list, with
PATTERN counted as written (log 3). -/
def State.withFetchWord (s : State) (nbits w : Nat) : State := placeCommand (tableByte nbits w) s

end Sys2Proof.Machine
end

