-- ==== Sys2Proof/Machine/Assembler.lean ====
section
/-! DEFINITION. The assembler of the spec: command syntax (30_encoding.md R72), the aliases (R73) and the lines
of a host program (R74). Text is a list of characters. White space, the forms of numbers, the form of an empty
line, and either case for everything but command mnemonics and operand letters are the model's choice (log 7). -/

namespace Sys2Proof.Machine

/-- Why the assembler refuses a line (30_encoding.md R72: any other operand spelling is refused). -/
inductive AsmError where
  | unknownMnemonic
  | wrongOperandCount
  | badPrecision
  | badLength
  | badSeparator
  | badIndex
  | badValue
  deriving DecidableEq, Repr

/-- W: the byte width of a pattern, the LEN of an alias (30_encoding.md R73). -/
def aliasLen : Precision → Nat
  | .single => 4
  | .double => 8

/-- `RNDH <p>` stands for `RNDH <p>, W, G` (30_encoding.md R73). -/
def rndhAlias (p : Precision) : Instr := .rndh p (aliasLen p) true

/-- `RNDB <p>` stands for `RNDB <p>, W, G` (30_encoding.md R73). -/
def rndbAlias (p : Precision) : Instr := .rndb p (aliasLen p) true

/-- A letter in upper case. R72 of 30_encoding.md makes command mnemonics and operand letters case-insensitive; that
every other letter of a line is so too is the model's choice. DESIGN CHOICE, log 7. -/
def upperChar (c : Char) : Char :=
  if 97 ≤ c.toNat && c.toNat ≤ 122 then Char.ofNat (c.toNat - 32) else c

/-- White space inside a line. -/
def isBlank (c : Char) : Bool := c == ' ' || c == '\t'

/-- A text without its leading and trailing white space. -/
def trimBlanks (cs : List Char) : List Char :=
  ((cs.dropWhile isBlank).reverse.dropWhile isBlank).reverse

/-- The operands of a list separated by commas (30_encoding.md R72). -/
def splitCommas : List Char → List (List Char)
  | [] => [[]]
  | c :: cs =>
    match splitCommas cs with
    | [] => [[c]]
    | w :: ws => if c == ',' then [] :: w :: ws else (c :: w) :: ws

/-- The value of a digit in a base up to 16. -/
def digitValue (base : Nat) (c : Char) : Option Nat :=
  let n := c.toNat
  let d := if 48 ≤ n && n ≤ 57 then n - 48 else if 65 ≤ n && n ≤ 70 then n - 55 else base
  if d < base then some d else none

/-- The number a digit sequence stands for, after the digits already read. -/
def digitsValue (base : Nat) : Nat → List Char → Option Nat
  | acc, [] => some acc
  | acc, c :: cs =>
    match digitValue base c with
    | some d => digitsValue base (acc * base + d) cs
    | none => none

/-- A decimal integer (30_encoding.md R72: `<len>` is decimal). -/
def parseDecimal : List Char → Option Nat
  | [] => none
  | c :: cs => digitsValue 10 0 (c :: cs)

/-- A constant: decimal, or hexadecimal with the `0x` prefix (00_scope.md R16). The text is in upper case. -/
def parseNumber : List Char → Option Nat
  | '0' :: 'X' :: c :: cs => digitsValue 16 0 (c :: cs)
  | cs => parseDecimal cs

/-- `<p>`: `S` or `D` (30_encoding.md R72). -/
def parsePrecision : List Char → Except AsmError Precision
  | ['S'] => .ok .single
  | ['D'] => .ok .double
  | _ => .error .badPrecision

/-- `<len>`: a decimal integer 0 to 15; any other is refused (30_encoding.md R72). -/
def parseLen (cs : List Char) : Except AsmError Nat :=
  match parseDecimal cs with
  | some n => if lenFits n then .ok n else .error .badLength
  | none => .error .badLength

/-- `<g>`: `G` or `N` (30_encoding.md R72). -/
def parseSep : List Char → Except AsmError Bool
  | ['G'] => .ok true
  | ['N'] => .ok false
  | _ => .error .badSeparator

/-- The operands of a render command (30_encoding.md R72), or of its alias (R73). -/
def parseRender (full : Precision → Nat → Bool → Instr) (short : Precision → Instr) :
    List (List Char) → Except AsmError Instr
  | [p] => do return short (← parsePrecision p)
  | [p, len, g] => do return full (← parsePrecision p) (← parseLen len) (← parseSep g)
  | _ => .error .wrongOperandCount

/-- REG index: a number 0 to 7, or a name of the REG map (30_encoding.md R74), in upper case (log 7). -/
def parseReg (cs : List Char) : Except AsmError (BitVec 3) :=
  if cs = "PATTERN".toList then .ok (regIndex .pattern)
  else if cs = "STATUS".toList then .ok (regIndex .status)
  else if cs = "SIGN".toList then .ok (regIndex .sign)
  else if cs = "EXP_RAW".toList then .ok (regIndex .expRaw)
  else if cs = "EXP_UNB".toList then .ok (regIndex .expUnb)
  else if cs = "MANT".toList then .ok (regIndex .mant)
  else if cs = "TEXT_LEN".toList then .ok (regIndex .textLen)
  else if cs = "CMD".toList then .ok (regIndex .cmd)
  else
    match parseNumber cs with
    | some n => if n < 8 then .ok (BitVec.ofNat 3 n) else .error .badIndex
    | none => .error .badIndex

/-- TEXT index: a number 0 to 127 (20_memory.md R41). -/
def parseTextIndex (cs : List Char) : Except AsmError (BitVec 7) :=
  match parseNumber cs with
  | some n => if n < 128 then .ok (BitVec.ofNat 7 n) else .error .badIndex
  | none => .error .badIndex

/-- A 64-bit value. -/
def parseValue (cs : List Char) : Except AsmError Word :=
  match parseNumber cs with
  | some n => if n < 2 ^ 64 then .ok (BitVec.ofNat 64 n) else .error .badValue
  | none => .error .badValue

/-- A command: its mnemonic and its operands, in upper case (30_encoding.md R72, R73). -/
def assembleCommand (mnemonic : List Char) (operands : List (List Char)) : Except AsmError Instr :=
  if mnemonic = "EXTS".toList then
    match operands with
    | [] => .ok .exts
    | _ :: _ => .error .wrongOperandCount
  else if mnemonic = "EXTD".toList then
    match operands with
    | [] => .ok .extd
    | _ :: _ => .error .wrongOperandCount
  else if mnemonic = "RNDH".toList then parseRender .rndh rndhAlias operands
  else if mnemonic = "RNDB".toList then parseRender .rndb rndbAlias operands
  else .error .unknownMnemonic

/-- One statement of a host program (30_encoding.md R74), in upper case. A command stands for its CMD write. -/
def assembleStatement (word : List Char) (operands : List (List Char)) : Except AsmError HostAccess :=
  if word = "WR".toList then
    match operands with
    | [i, v] => do return .write (← parseReg i) (← parseValue v)
    | _ => .error .wrongOperandCount
  else if word = "RD".toList then
    match operands with
    | [i] => do return .read (← parseReg i)
    | _ => .error .wrongOperandCount
  else if word = "RDT".toList then
    match operands with
    | [k] => do return .readText (← parseTextIndex k)
    | _ => .error .wrongOperandCount
  else if word = "RESET".toList then
    match operands with
    | [] => .ok .reset
    | _ :: _ => .error .wrongOperandCount
  else do return cmdWrite (encode (← assembleCommand word operands))

/-- One line of a host program: at most one access; `;` starts a comment (30_encoding.md R74). The line is taken in
upper case: R72 says so for command mnemonics and operand letters; for WR, RD, RDT, RESET, register names,
hexadecimal digits and the x of 0x, on whose case R74 is silent, it is the model's choice. DESIGN CHOICE, log 7. -/
def assembleLine (line : List Char) : Except AsmError (Option HostAccess) :=
  let code := trimBlanks ((line.takeWhile (· != ';')).map upperChar)
  if code.isEmpty then .ok none
  else
    let word := code.takeWhile (fun c => !isBlank c)
    let rest := trimBlanks (code.dropWhile (fun c => !isBlank c))
    let operands := if rest.isEmpty then [] else (splitCommas rest).map trimBlanks
    do return some (← assembleStatement word operands)

/-- A host program: the accesses of its lines, in order (30_encoding.md R74). -/
def assembleProgram : List (List Char) → Except AsmError (List HostAccess)
  | [] => .ok []
  | line :: lines => do
    let access ← assembleLine line
    let rest ← assembleProgram lines
    return access.toList ++ rest

/-- The host takes up a program: its accesses are the ones it makes next (20_memory.md R58; log 1). -/
def State.loadProgram (program : List HostAccess) (s : State) : State := { s with pending := program }

/-- The letter of a precision (30_encoding.md R72). -/
def precisionLetter : Precision → Char
  | .single => 'S'
  | .double => 'D'

/-- The letter of the SEP flag (30_encoding.md R72). -/
def sepLetter (g : Bool) : Char := if g then 'G' else 'N'

/-- A LEN value as a decimal integer of one or two digits. -/
def lenText (n : Nat) : List Char :=
  if n < 10 then [Char.ofNat (48 + n)] else [Char.ofNat (48 + n / 10), Char.ofNat (48 + n % 10)]

/-- The text of a render command's operands (30_encoding.md R72). -/
def renderOperandsText (p : Precision) (len : Nat) (g : Bool) : List Char :=
  precisionLetter p :: ", ".toList ++ lenText len ++ ", ".toList ++ [sepLetter g]

/-- The assembler text of a command (30_encoding.md R72). -/
def commandText : Instr → List Char
  | .exts => "EXTS".toList
  | .extd => "EXTD".toList
  | .rndh p len g => "RNDH ".toList ++ renderOperandsText p len g
  | .rndb p len g => "RNDB ".toList ++ renderOperandsText p len g

end Sys2Proof.Machine
end

