-- ==== Sys2Proof/Safety.lean ====
section
/-! DEFINITION. What the claims about the machine are stated in: the invariant of the block, the host's
protocol, and a run without a fault. -/

namespace Sys2Proof

open Sys2Proof.Machine

/-- The character codes of a digit (41_render.md R106, R107): "0" to "9" or "A" to "F". -/
abbrev isDigitCode (c : Byte) : Prop :=
  (0x30 ≤ c.toNat ∧ c.toNat ≤ 0x39) ∨ (0x41 ≤ c.toNat ∧ c.toNat ≤ 0x46)

/-- The character codes a rendered string may hold (41_render.md R107): "0" to "9", "A" to "F", space, ":", ",". -/
abbrev isTextCode (c : Byte) : Prop := isDigitCode c ∨ c = 0x20 ∨ c = 0x3A ∨ c = 0x2C

/-- The codes of the separators of an n-unit text, first one first, as 41_render.md R112 lays them out. -/
def separatorLayout : Nat → List Byte
  | 2 => [0x3A]
  | 3 => [0x2C, 0x3A]
  | 4 => [0x3A, 0x2C, 0x3A]
  | 5 => [0x20, 0x3A, 0x2C, 0x3A]
  | 6 => [0x3A, 0x20, 0x3A, 0x2C, 0x3A]
  | 7 => [0x2C, 0x3A, 0x20, 0x3A, 0x2C, 0x3A]
  | 8 => [0x3A, 0x2C, 0x3A, 0x20, 0x3A, 0x2C, 0x3A]
  | _ => []

/-- The extract results hold a legal value of the last extract's precision (10_state.md R24 to R28, 40_extract.md
R83, R84, R88, R89): ranges, the exponent difference, the display mark, the unused upper bits. -/
def fieldsLegal (b : Block) : Prop :=
  b.sign.toNat ≤ 1 ∧
    match b.fprec with
    | .single =>
      b.mlen = 3 ∧ b.expRaw.toNat < 2 ^ 8 ∧ b.expUnb.toInt = (b.expRaw.toNat : Int) - 127 ∧
        2 ^ 23 ≤ b.mant.toNat ∧ b.mant.toNat < 2 ^ 24
    | .double =>
      b.mlen = 7 ∧ b.expRaw.toNat < 2 ^ 11 ∧ b.expUnb.toInt = (b.expRaw.toNat : Int) - 1023 ∧
        2 ^ 52 ≤ b.mant.toNat ∧ b.mant.toNat < 2 ^ 53

/-- The text results hold a string of at most 71 legal characters and zero fill (10_state.md R30, R32,
41_render.md R104, R107). -/
def textLegal (b : Block) : Prop :=
  b.textLen.toNat ≤ 71 ∧
    ∀ k < 72, if k < b.textLen.toNat then isTextCode (b.textAt k) else b.textAt k = 0

/-- The invariant of the block: a result is there only after PATTERN was written (30_encoding.md R68), no extract
leaves FPREC and MLEN at 0 (10_state.md R24), and valid results are legal. -/
structure BlockInvariant (b : Block) : Prop where
  fields_after_pattern : b.fv = true → b.pv = true
  text_after_pattern : b.tv = true → b.pv = true
  no_extract : b.fv = false → b.fprec = .single ∧ b.mlen = 0
  fields : b.fv = true → fieldsLegal b
  text : b.tv = true → textLegal b

/-- The host's side of the contract over a list of accesses, given which of PATTERN, the fields and the text are
valid (20_memory.md R57, column "host must"; 70_reset_and_hazards.md R143, R144): PATTERN is written before a
command, an extract completes before a field is read, a render before the text is. -/
def obeysProtocol : Bool → Bool → Bool → List HostAccess → Bool
  | _, _, _, [] => true
  | _, _, _, .reset :: rest => obeysProtocol false false false rest
  | pv, fv, tv, .write i v :: rest =>
    if i = 0 then obeysProtocol true fv tv rest
    else if i = 7 then
      pv && (if v.getLsbD 0 then obeysProtocol pv fv true rest else obeysProtocol pv true tv rest)
    else obeysProtocol pv fv tv rest
  | pv, fv, tv, .read i :: rest =>
    (if i = 0 then pv
     else if i = 2 || i = 3 || i = 4 || i = 5 then fv
     else if i = 6 then tv
     else true) && obeysProtocol pv fv tv rest
  | pv, fv, tv, .readText k :: rest => (tv || decide (72 ≤ k.toNat)) && obeysProtocol pv fv tv rest

/-- How many of the accesses return a value (20_memory.md R57). -/
def countReads : List HostAccess → Nat
  | [] => 0
  | .read _ :: rest => countReads rest + 1
  | .readText _ :: rest => countReads rest + 1
  | .write _ _ :: rest => countReads rest
  | .reset :: rest => countReads rest

end Sys2Proof
end

