-- ==== Sys2Proof/Certificates/Slice0/Obligations.lean ====
section
/-! DEFINITION. The statements about the fpdissect field extractor. Each docstring names the rule of spec/ it
comes from. -/

open Sys2Proof Sys2Proof.Machine

/-! ### Encoding -/

/-- R9: the field layouts are those of the rule's table, and the widths of the fields sum to the width of the
pattern. -/
def Obligations.LayoutsAreTheTable : Prop :=
  layout .single = ⟨32, 1, 8, 127, 23, 3, 0x80⟩ ∧ layout .double = ⟨64, 1, 11, 1023, 52, 7, 0x10⟩ ∧
    ∀ p : Precision,
      (layout p).signBits + (layout p).exponentBits + (layout p).mantissaBits = (layout p).width

/-- R67: the opcode map has the four rows of the rule, every word selects exactly one of them, the row of the command
it decodes to, and each row is selected by 64 words. -/
def Obligations.EveryWordSelectsOneRow : Prop :=
  opcodeTable =
      [⟨.EXTS, 0x00, 0x03⟩, ⟨.EXTD, 0x02, 0x03⟩, ⟨.RNDH, 0x01, 0x05⟩, ⟨.RNDB, 0x05, 0x05⟩] ∧
    (∀ w : Byte, (opcodeTable.filter fun r => r.selects w).map OpcodeRow.mnemonic = [(decode w).mnemonic]) ∧
    ∀ r ∈ opcodeTable, ((List.range 256).filter fun n => r.selects (BitVec.ofNat 8 n)).length = 64

/-- R72, R73 and the vectors of 95_test_vectors.md: words written out from the encoding decode to their commands. -/
def Obligations.WrittenWordsDecode : Prop :=
  decode 0b00000000 = .exts ∧ decode 0b11111100 = .exts ∧
    decode 0b00000010 = .extd ∧ decode 0b10101110 = .extd ∧
    decode 0b10001011 = .rndh .double 8 true ∧ decode 0b01001001 = .rndh .single 4 true ∧
    decode 0b00011101 = .rndb .single 1 true ∧ decode 0b10000111 = .rndb .double 8 false ∧
    decode 0b11110001 = .rndh .single 15 false ∧ decode 0b00000101 = .rndb .single 0 false

/-- R61, R68, R72: decoding the word of a well-formed command gives the command back, for every command. -/
def Obligations.DecodeEncode : Prop :=
  ∀ i : Instr, i.wellFormed = true → decode (encode i) = i

/-- R72: the encoding table, as the rule writes it, with the letters' values. -/
def Obligations.EncodingTable : Prop :=
  encode .exts = 0x00 ∧ encode .extd = 0x02 ∧
    ∀ (d g : Bool) (len : Nat), len ≤ 15 →
      (encode (.rndh (if d then .double else .single) len g)).toNat =
          (len <<< 4 ||| g.toNat <<< 3 ||| 0 <<< 2 ||| d.toNat <<< 1 ||| 1) ∧
        (encode (.rndb (if d then .double else .single) len g)).toNat =
          (len <<< 4 ||| g.toNat <<< 3 ||| 1 <<< 2 ||| d.toNat <<< 1 ||| 1)

/-! ### The assembler -/

/-- R72: the assembler reads the text of every well-formed command as the CMD write of its word. -/
def Obligations.AssembledTextIsTheCommand : Prop :=
  ∀ i : Instr, i.wellFormed = true →
    assembleLine (commandText i) = .ok (some (.write 7 ((encode i).setWidth 64)))

/-- From R72, with log 7: no line of program text depends on the case of its letters. R72 says so of the mnemonics
and the operand letters of commands; that it holds of register names, hexadecimal digits, the x of 0x and the words WR,
RD, RDT and RESET is the model's choice (DESIGN CHOICE, log 7). -/
def Obligations.AssemblerIgnoresCase : Prop :=
  ∀ line : List Char, assembleLine (line.map upperChar) = assembleLine line

/-- R72: an assembler refuses a `<len>` outside 0 to 15, so what it accepts is a well-formed command. -/
def Obligations.AssemblerRefusesLongLen : Prop :=
  (∀ (text : List Char) (n : Nat), parseDecimal text = some n → 15 < n → parseLen text = .error .badLength) ∧
    ∀ (mnemonic : List Char) (operands : List (List Char)) (i : Instr),
      assembleCommand mnemonic operands = .ok i → i.wellFormed = true

/-- R73: the aliases expand to the full width of the pattern, grouped, with the words the rule gives. -/
def Obligations.AliasesExpand : Prop :=
  assembleLine "RNDH S".toList = .ok (some (.write 7 0x49)) ∧
    assembleLine "RNDH D".toList = .ok (some (.write 7 0x8B)) ∧
    assembleLine "RNDB S".toList = .ok (some (.write 7 0x4D)) ∧
    assembleLine "RNDB D".toList = .ok (some (.write 7 0x8F)) ∧
    ∀ p : Precision,
      rndhAlias p = .rndh p (if p = .single then 4 else 8) true ∧
        rndbAlias p = .rndb p (if p = .single then 4 else 8) true

/-! ### The host port -/

/-- R60: a CMD write executes the command that bits 7:0 of the value decode to; bits 63:8 are ignored. The step adds
the record of a model fault: the fault is this access's (R121). -/
def Obligations.StepRunsDecodedCommand : Prop :=
  ∀ (s : State) (v : Word) (rest : List HostAccess), s.pending = .write 7 v :: rest →
    let run := exec (decode (v.extractLsb 7 0)) { s with pending := rest }
    step s = recordAccess (.write 7 v) run ∧ (s.block.pv = true → step s = run)

/-- R68: the execution of a command word, bit by bit: the PV check, then the command its bits select. The fault records
the access (R121). -/
def Obligations.ExecuteFollowsTheDecodeRule : Prop :=
  ∀ (s : State) (v : Word) (rest : List HostAccess), s.pending = .write 7 v :: rest →
    (s.block.pv = false → step s = .fault (.unwrittenPattern (.write 7 v))) ∧
      (s.block.pv = true →
        let s' : State := { s with pending := rest }
        let prec : Precision := if v.getLsbD 1 then .double else .single
        let len : Nat := v.toNat % 256 / 16
        let sep : Bool := v.getLsbD 3
        step s =
          if v.getLsbD 0 = false then
            if v.getLsbD 1 = false then exec .exts s' else exec .extd s'
          else if v.getLsbD 2 = false then exec (.rndh prec len sep) s'
          else exec (.rndb prec len sep) s')

/-- R69: no word traps once PATTERN is written; bits 7:2 of an extract word are ignored, and the encoder writes 0 into
them; LEN 9 to 15 behave as 8. -/
def Obligations.NoWordIsIllegal : Prop :=
  (∀ (w : Byte) (s : State), s.block.pv = true → ∃ t, exec (decode w) s = .next t) ∧
    (∀ w : Byte, w.getLsbD 0 = false → decode w = decode (w &&& 0x03#8)) ∧
    (encode .exts).extractLsb 7 2 = 0 ∧ (encode .extd).extractLsb 7 2 = 0 ∧
    ∀ (p : Precision) (len : Nat) (g : Bool) (s : State), 9 ≤ len → len ≤ 15 → s.block.pv = true →
      exec (.rndh p len g) s = exec (.rndh p 8 g) s ∧ exec (.rndb p len g) s = exec (.rndb p 8 g) s

/-- R44: a host write of PATTERN sets it and PV; a write of CMD executes, and a model fault of the command records the
write (R121); a write of any other index has no effect. -/
def Obligations.HostWriteEffects : Prop :=
  ∀ (s : State) (i : BitVec 3) (v : Word) (rest : List HostAccess), s.pending = .write i v :: rest →
    step s =
      if i = 0 then .next { s with block := { s.block with pattern := v, pv := true }, pending := rest }
      else if i = 7 then recordAccess (.write 7 v) (exec (decode (v.extractLsb 7 0)) { s with pending := rest })
      else .next { s with pending := rest }

/-- R43: what a host read of each REG index returns, and where it is a model fault. A read changes nothing of the
block. STATUS is the number its fields make up (R24). -/
def Obligations.HostReadReturns : Prop :=
  ∀ (s : State) (i : BitVec 3) (rest : List HostAccess), s.pending = .read i :: rest →
    let b := s.block
    let got (v : Word) : Result := .next { s with pending := rest, observed := s.observed ++ [.reg v] }
    step s =
      if i = 7 then got 0
      else if i = 0 ∧ b.pv = false then .fault (.unwrittenPattern (.read 0))
      else if (i = 2 ∨ i = 3 ∨ i = 4 ∨ i = 5) ∧ b.fv = false then .fault (.unwrittenFields (regAt i))
      else if i = 6 ∧ b.tv = false then .fault (.unwrittenText .textLen)
      else if i = 0 then got b.pattern
      else if i = 1 then
        got (BitVec.ofNat 64 (b.pv.toNat + 2 * b.fv.toNat + 4 * b.tv.toNat +
          8 * (if b.fprec = .double then 1 else 0) + 16 * b.mlen.toNat))
      else if i = 2 then got b.sign
      else if i = 3 then got b.expRaw
      else if i = 4 then got b.expUnb
      else if i = 5 then got b.mant
      else got b.textLen

/-- R45: what a host read of each TEXT index returns, and where it is a model fault. A read changes nothing of the
block. That the bytes past the text read as 0x00 is said of the blocks that meet the invariant, which rules out the
states no run reaches. -/
def Obligations.HostTextReadReturns : Prop :=
  ∀ (s : State) (k : BitVec 7) (rest : List HostAccess), s.pending = .readText k :: rest →
    let got (c : Byte) : Result := .next { s with pending := rest, observed := s.observed ++ [.text c] }
    (72 ≤ k.toNat → step s = got 0) ∧
      (k.toNat < 72 → s.block.tv = false → step s = .fault (.unwrittenText (.text k))) ∧
      (∀ h : k.toNat < 72, s.block.tv = true → step s = got s.block.text[k.toNat]) ∧
      (BlockInvariant s.block → s.block.tv = true → s.block.textLen.toNat ≤ k.toNat → k.toNat < 72 → step s = got 0)

/-- R134: between host accesses the block is idle and holds its state. That a step with no access left answers the
same state is the model's reading (log 4). -/
def Obligations.IdleHoldsState : Prop :=
  ∀ s : State, s.pending = [] → step s = .next s

/-! ### Extract -/

/-- R81: EXTS on every pattern, in the arithmetic of R82, R83 and R84, with everything it leaves unchanged; and its
model fault while PV = 0. -/
def Obligations.ExtsResult : Prop :=
  ∀ s : State,
    let b : Nat := s.block.pattern.toNat % 2 ^ 32
    (s.block.pv = true → exec .exts s = .next { s with block := { s.block with
      sign := BitVec.ofNat 64 (b / 2 ^ 31)
      expRaw := BitVec.ofNat 64 (b / 2 ^ 23 % 2 ^ 8)
      expUnb := BitVec.ofInt 64 (((b / 2 ^ 23 % 2 ^ 8 : Nat) : Int) - 127)
      mant := BitVec.ofNat 64 (2 ^ 23 + b % 2 ^ 23)
      fv := true, fprec := .single, mlen := 3 } }) ∧
    (s.block.pv = false → ∃ u, exec .exts s = .fault (.unwrittenPattern u))

/-- R86: EXTD on every pattern, in the arithmetic of R87, R88 and R89, with everything it leaves unchanged; and its
model fault while PV = 0. -/
def Obligations.ExtdResult : Prop :=
  ∀ s : State,
    let b : Nat := s.block.pattern.toNat
    (s.block.pv = true → exec .extd s = .next { s with block := { s.block with
      sign := BitVec.ofNat 64 (b / 2 ^ 63)
      expRaw := BitVec.ofNat 64 (b / 2 ^ 52 % 2 ^ 11)
      expUnb := BitVec.ofInt 64 (((b / 2 ^ 52 % 2 ^ 11 : Nat) : Int) - 1023)
      mant := BitVec.ofNat 64 (2 ^ 52 + b % 2 ^ 52)
      fv := true, fprec := .double, mlen := 7 } }) ∧
    (s.block.pv = false → ∃ u, exec .extd s = .fault (.unwrittenPattern u))

/-- R84 (with R29): the three mantissa bytes after EXTS, and MANT put together from them. -/
def Obligations.SingleMantissaBytes : Prop :=
  ∀ s t : State, exec .exts s = .next t →
    let b := s.block.pattern
    let m0 : Byte := 0x80#8 ||| (b.extractLsb' 16 7).setWidth 8
    let m1 : Byte := b.extractLsb' 8 8
    let m2 : Byte := b.extractLsb' 0 8
    t.block.mantissaBytes = [m0, m1, m2] ∧
      t.block.mant.toNat = m0.toNat * 2 ^ 16 + m1.toNat * 2 ^ 8 + m2.toNat ∧
      t.block.mant = 0x800000#64 ||| (b &&& 0x7FFFFF#64)

/-- R89 (with R29): the seven mantissa bytes after EXTD. -/
def Obligations.DoubleMantissaBytes : Prop :=
  ∀ s t : State, exec .extd s = .next t →
    let b := s.block.pattern
    t.block.mantissaBytes =
        [0x10#8 ||| (b.extractLsb' 48 4).setWidth 8, b.extractLsb' 40 8, b.extractLsb' 32 8, b.extractLsb' 24 8,
          b.extractLsb' 16 8, b.extractLsb' 8 8, b.extractLsb' 0 8] ∧
      t.block.mant = (1#64 <<< 52) ||| (b &&& 0xFFFFFFFFFFFFF#64)

/-- R88 (with R26): the two display groups of the double exponent, and the unbiased exponent computed from them. -/
def Obligations.DoubleExponentGroups : Prop :=
  ∀ s t : State, exec .extd s = .next t →
    let b := s.block.pattern
    t.block.expHi = b.extractLsb' 60 3 ∧ t.block.expLo8 = b.extractLsb' 52 8 ∧
      t.block.expRaw = (b >>> 52) &&& 0x7FF#64 ∧
      t.block.expUnb.toInt = ((t.block.expHi.toNat * 2 ^ 8 + t.block.expLo8.toNat : Nat) : Int) - 1023 ∧
      -1023 ≤ t.block.expUnb.toInt ∧ t.block.expUnb.toInt ≤ 1024

/-- R83 (with R92 and R26): the raw exponent of a Single pattern, and the unbiased exponent as its exact difference
with the bias, in the range of the rule. -/
def Obligations.SingleExponentLaw : Prop :=
  ∀ s t : State, exec .exts s = .next t →
    t.block.expRaw = (s.block.pattern >>> 23) &&& 0xFF#64 ∧ t.block.expHi = 0 ∧
      t.block.expUnb.toInt = (t.block.expRaw.toNat : Int) - 127 ∧
      -127 ≤ t.block.expUnb.toInt ∧ t.block.expUnb.toInt ≤ 128

/-- R85: the corner cases of EXTS. -/
def Obligations.SingleCornerCases : Prop :=
  ∀ s t : State, exec .exts s = .next t →
    let b := s.block.pattern
    (b.extractLsb' 23 8 = 0 → t.block.expUnb.toInt = -127 ∧ t.block.mant.getLsbD 23 = true) ∧
      (b.extractLsb' 23 8 = 255 → t.block.expUnb.toInt = 128) ∧
      (b.setWidth 32 = 0x80000000 →
        t.block.sign = 1 ∧ t.block.expRaw = 0 ∧ t.block.expUnb.toInt = -127 ∧ t.block.mant = 0x800000) ∧
      (b.setWidth 32 = 0 →
        t.block.sign = 0 ∧ t.block.expRaw = 0 ∧ t.block.expUnb.toInt = -127 ∧ t.block.mant = 0x800000) ∧
      ∀ upper : BitVec 32,
        exec .exts { s with block := { s.block with pattern := upper ++ b.setWidth 32 } } =
          .next { t with block := { t.block with pattern := upper ++ b.setWidth 32 } }

/-- R90: the corner cases of EXTD. -/
def Obligations.DoubleCornerCases : Prop :=
  ∀ s t : State, exec .extd s = .next t →
    let b := s.block.pattern
    (b.extractLsb' 52 11 = 0 → t.block.expUnb.toInt = -1023 ∧ t.block.mant.getLsbD 52 = true) ∧
      (b.extractLsb' 52 11 = 0x7FF →
        t.block.expHi = 7 ∧ t.block.expLo8 = 0xFF ∧ t.block.expUnb.toInt = 1024) ∧
      (b = 0x8000000000000000 →
        t.block.sign = 1 ∧ t.block.expRaw = 0 ∧ t.block.expUnb.toInt = -1023 ∧ t.block.mant = 0x10000000000000) ∧
      (b = 0 →
        t.block.sign = 0 ∧ t.block.expRaw = 0 ∧ t.block.expUnb.toInt = -1023 ∧ t.block.mant = 0x10000000000000) ∧
      t.block.mant.extractLsb' 53 11 = 0

/-- R91, R93, R94: the fields lose nothing: sign, raw exponent and MANT without its mark put the pattern together
again, whatever its category. -/
def Obligations.FieldsReassemblePattern : Prop :=
  ∀ s t : State,
    (exec .exts s = .next t →
      s.block.pattern.setWidth 32 =
        (t.block.sign <<< 31 ||| t.block.expRaw <<< 23 ||| (t.block.mant &&& 0x7FFFFF#64)).setWidth 32) ∧
    (exec .extd s = .next t →
      s.block.pattern = t.block.sign <<< 63 ||| t.block.expRaw <<< 52 ||| (t.block.mant &&& 0xFFFFFFFFFFFFF#64))

/-! ### Render -/

/-- R108: RNDH on every pattern, PREC, LEN and SEP. With n = min(LEN, 8) units of two digits, unit of byte q starts at
character (n − 1 − q) · stride; its characters are the uppercase hex codes of the byte's nibbles, high first; the
separator of R105 follows it when SEP = 1 and q is not 0; the rest of TEXT is 0x00. Everything else is unchanged. And
its model fault while PV = 0. -/
def Obligations.RndhResult : Prop :=
  ∀ (s : State) (p : Precision) (len : Nat) (g : Bool),
    let src : Nat := if p = .double then s.block.pattern.toNat else s.block.pattern.toNat % 2 ^ 32
    let n : Nat := min len 8
    let stride : Nat := if g then 3 else 2
    let code (d : Nat) : Nat := if d < 10 then 0x30 + d else 0x41 + (d - 10)
    (s.block.pv = true → ∃ t : State, exec (.rndh p len g) s = .next t ∧
      t = { s with block := { s.block with text := t.block.text, textLen := t.block.textLen, tv := true } } ∧
      t.block.textLen.toNat = n * 2 + (if g then n - 1 else 0) ∧
      (∀ q < n,
        (t.block.textAt ((n - 1 - q) * stride)).toNat = code (src / 2 ^ (8 * q + 4) % 16) ∧
        (t.block.textAt ((n - 1 - q) * stride + 1)).toNat = code (src / 2 ^ (8 * q) % 16) ∧
        (g = true → 0 < q → t.block.textAt ((n - 1 - q) * stride + 2) =
          if q % 4 = 0 then 0x20 else if q % 4 = 2 then 0x2C else 0x3A)) ∧
      ∀ k, t.block.textLen.toNat ≤ k → k < 72 → t.block.textAt k = 0) ∧
    (s.block.pv = false → ∃ u, exec (.rndh p len g) s = .fault (.unwrittenPattern u))

/-- R109: RNDB on every pattern, PREC, LEN and SEP, as R108 but with units of eight binary digits, most significant bit
first. -/
def Obligations.RndbResult : Prop :=
  ∀ (s : State) (p : Precision) (len : Nat) (g : Bool),
    let src : Nat := if p = .double then s.block.pattern.toNat else s.block.pattern.toNat % 2 ^ 32
    let n : Nat := min len 8
    let stride : Nat := if g then 9 else 8
    (s.block.pv = true → ∃ t : State, exec (.rndb p len g) s = .next t ∧
      t = { s with block := { s.block with text := t.block.text, textLen := t.block.textLen, tv := true } } ∧
      t.block.textLen.toNat = n * 8 + (if g then n - 1 else 0) ∧
      (∀ q < n,
        (∀ j < 8, (t.block.textAt ((n - 1 - q) * stride + j)).toNat = 0x30 + src / 2 ^ (8 * q + (7 - j)) % 2) ∧
        (g = true → 0 < q → t.block.textAt ((n - 1 - q) * stride + 8) =
          if q % 4 = 0 then 0x20 else if q % 4 = 2 then 0x2C else 0x3A)) ∧
      ∀ k, t.block.textLen.toNat ≤ k → k < 72 → t.block.textAt k = 0) ∧
    (s.block.pv = false → ∃ u, exec (.rndb p len g) s = .fault (.unwrittenPattern u))

/-- R110: the length law, and its maximum 71. -/
def Obligations.RenderLengthLaw : Prop :=
  ∀ (s t : State) (p : Precision) (len : Nat) (g : Bool) (i : Instr) (u : Nat),
    (i = .rndh p len g ∧ u = 2 ∨ i = .rndb p len g ∧ u = 8) → exec i s = .next t →
      let n := min len 8
      (n = 0 → t.block.textLen.toNat = 0) ∧
        (g = true → 1 ≤ n → t.block.textLen.toNat = n * u + (n - 1)) ∧
        (g = false → t.block.textLen.toNat = n * u) ∧
        t.block.textLen.toNat ≤ 71

/-- R111: the clamp law. Every LEN in 9 to 15 gives the TEXT and TEXT_LEN that LEN = 8 gives. -/
def Obligations.RenderClampLaw : Prop :=
  ∀ (s t t8 : State) (p : Precision) (len : Nat) (g : Bool), 9 ≤ len → len ≤ 15 →
    (exec (.rndh p len g) s = .next t → exec (.rndh p 8 g) s = .next t8 →
      t.block.text = t8.block.text ∧ t.block.textLen = t8.block.textLen) ∧
    (exec (.rndb p len g) s = .next t → exec (.rndb p 8 g) s = .next t8 →
      t.block.text = t8.block.text ∧ t.block.textLen = t8.block.textLen)

/-- R112: with SEP = 1 the separators stand after each unit but the last, in the layout of the rule's table, which
depends on n alone; every other character of the text is a digit. -/
def Obligations.SeparatorLayoutByCount : Prop :=
  ∀ (s t : State) (p : Precision) (len : Nat) (i : Instr) (u : Nat),
    (i = .rndh p len true ∧ u = 2 ∨ i = .rndb p len true ∧ u = 8) → exec i s = .next t →
      ∀ k < t.block.textLen.toNat,
        if (k + 1) % (u + 1) = 0 then
          (separatorLayout (min len 8))[k / (u + 1)]? = some (t.block.textAt k)
        else isDigitCode (t.block.textAt k)

/-- R107 (with R104): no code but those of the rule stands in TEXT[0 .. TEXT_LEN−1], and the fill byte 0x00 in the
rest. -/
def Obligations.TextHoldsOnlyItsCodes : Prop :=
  ∀ (s t : State) (p : Precision) (len : Nat) (g : Bool) (i : Instr),
    (i = .rndh p len g ∨ i = .rndb p len g) → exec i s = .next t →
      ∀ k < 72,
        (k < t.block.textLen.toNat → isTextCode (t.block.textAt k)) ∧
          (t.block.textLen.toNat ≤ k → t.block.textAt k = 0)

/-- From R103, R106 and R108: a full-length render of a Double pattern loses nothing. Two patterns with the same TEXT
after the same command are equal, in both modes, with and without separators. -/
def Obligations.FullRenderDeterminesPattern : Prop :=
  ∀ (s s' t t' : State) (len : Nat) (g : Bool) (i : Instr), 8 ≤ len →
    (i = .rndh .double len g ∨ i = .rndb .double len g) →
    exec i s = .next t → exec i s' = .next t' →
    t.block.text = t'.block.text → s.block.pattern = s'.block.pattern

/-! ### Commands together -/

/-- From R37, with log 6: the write matrix. A PATTERN write, an extract and a render change only the state the rule
lists for them; no other access but a reset changes the block. R37 lists the whole block for a reset; the reset clause
says that the host's lists are as they were, which R37 does not say and is the model's reading (DEDUCED, log 6). -/
def Obligations.WriteMatrix : Prop :=
  (∀ (s t : State) (v : Word) (rest : List HostAccess), s.pending = .write 0 v :: rest → step s = .next t →
    t = { s with pending := rest, block := { s.block with pattern := t.block.pattern, pv := t.block.pv } }) ∧
  (∀ (s t : State) (i : Instr), (i = .exts ∨ i = .extd) → exec i s = .next t →
    t = { s with block := { s.block with
      sign := t.block.sign, expRaw := t.block.expRaw, expUnb := t.block.expUnb, mant := t.block.mant
      fv := t.block.fv, fprec := t.block.fprec, mlen := t.block.mlen } }) ∧
  (∀ (s t : State) (p : Precision) (len : Nat) (g : Bool) (i : Instr),
    (i = .rndh p len g ∨ i = .rndb p len g) → exec i s = .next t →
    t = { s with block := { s.block with
      text := t.block.text, textLen := t.block.textLen, tv := t.block.tv } }) ∧
  (∀ (s t : State) (rest : List HostAccess), s.pending = .reset :: rest → step s = .next t →
    t = { s with pending := rest, block := t.block }) ∧
  ∀ (s t : State) (a : HostAccess) (rest : List HostAccess), s.pending = a :: rest →
    (∀ v, a ≠ .write 0 v) → (∀ v, a ≠ .write 7 v) → a ≠ .reset → step s = .next t → t.block = s.block

/-- R120, R123: once PATTERN has been written every command completes, on every operand. -/
def Obligations.EveryCommandCompletes : Prop :=
  ∀ (i : Instr) (s : State), s.block.pv = true →
    ∃ t : State, exec i s = .next t ∧ t.block.pv = true ∧ t.block.pattern = s.block.pattern ∧
      t.pending = s.pending ∧ t.observed = s.observed ∧ (t.block.fv = true ∨ t.block.tv = true)

/-- R122: a command issued while PV = 0 is the model fault UNWRITTEN_PATTERN, at the CMD write, with no next state. -/
def Obligations.CommandBeforePatternFaults : Prop :=
  ∀ (s : State) (v : Word) (rest : List HostAccess), s.pending = .write 7 v :: rest → s.block.pv = false →
    ∃ f : Fault, step s = .fault f ∧ f.code = 1

/-- R50, R80, R100: repeating a command with an unchanged PATTERN changes nothing. -/
def Obligations.CommandsAreIdempotent : Prop :=
  ∀ (i : Instr) (s t : State), exec i s = .next t → exec i t = .next t

/-- R80, R100, R141: a command's results depend on PATTERN alone: not on the earlier results, not on the other
component, not on the host's side. -/
def Obligations.ResultsDependOnPatternAlone : Prop :=
  ∀ (s s' t t' : State), s.block.pattern = s'.block.pattern →
    (∀ i, (i = .exts ∨ i = .extd) → exec i s = .next t → exec i s' = .next t' →
      t.block.sign = t'.block.sign ∧ t.block.expRaw = t'.block.expRaw ∧ t.block.expUnb = t'.block.expUnb ∧
        t.block.mant = t'.block.mant ∧ t.block.fprec = t'.block.fprec ∧ t.block.mlen = t'.block.mlen) ∧
    ∀ i p len g, (i = .rndh p len g ∨ i = .rndb p len g) → exec i s = .next t → exec i s' = .next t' →
      t.block.text = t'.block.text ∧ t.block.textLen = t'.block.textLen

/-- R144: an extract and a render on one pattern can be issued in either order with the same results. -/
def Obligations.ExtractAndRenderCommute : Prop :=
  ∀ (s t u : State) (e r : Instr) (p : Precision) (len : Nat) (g : Bool),
    (e = .exts ∨ e = .extd) → (r = .rndh p len g ∨ r = .rndb p len g) →
    exec e s = .next t → exec r t = .next u →
    ∃ t' : State, exec r s = .next t' ∧ exec e t' = .next u

/-- R23: commands with PREC = 0 read only PATTERN[31:0]: changing PATTERN[63:32] changes no result. -/
def Obligations.SingleCommandsIgnoreUpperHalf : Prop :=
  ∀ (s t : State) (i : Instr) (len : Nat) (g : Bool) (v : Word),
    (i = .exts ∨ i = .rndh .single len g ∨ i = .rndb .single len g) →
    v.setWidth 32 = s.block.pattern.setWidth 32 → exec i s = .next t →
    exec i { s with block := { s.block with pattern := v } } =
      .next { t with block := { t.block with pattern := v } }

/-! ### Reset, faults, invariants, runs -/

/-- From R140, with log 6: the reset access sets STATUS to 0 and leaves every other location without a value, so that a
read of it is a model fault; only STATUS and the locations that always read as 0 can be read. That the host's side is
unchanged (the clauses on pending and observed) R140 does not say: it is the model's reading (DEDUCED, log 6). -/
def Obligations.ResetLeavesNoValue : Prop :=
  ∀ (s : State) (rest : List HostAccess), s.pending = .reset :: rest →
    ∃ t : State, step s = .next t ∧ t.pending = rest ∧ t.observed = s.observed ∧
      t.block.status = 0 ∧ t.block.pv = false ∧ t.block.fv = false ∧ t.block.tv = false ∧
      t.block.fprec = .single ∧ t.block.mlen = 0 ∧
      (∀ i : BitVec 3, i ≠ 1 → i ≠ 7 → ∃ f, step { t with pending := .read i :: rest } = .fault f) ∧
      (∀ k : BitVec 7, k.toNat < 72 → ∃ f, step { t with pending := .readText k :: rest } = .fault f)

/-- R141: two resets in a row leave the block as one does, and after a reset nothing of what the block held before it
matters. -/
def Obligations.ResetIsIdempotent : Prop :=
  (∀ (s t u : State) (rest : List HostAccess), s.pending = .reset :: .reset :: rest →
    step s = .next t → step t = .next u → u.block = t.block) ∧
  ∀ (s : State) (b : Block) (rest : List HostAccess), s.pending = .reset :: rest →
    step { s with block := b } = step s

/-- R142: power-on applies reset: the power-on block is the block a reset access leaves, from every state. -/
def Obligations.PowerOnIsReset : Prop :=
  ∀ (s t : State) (rest : List HostAccess), s.pending = .reset :: rest → step s = .next t →
    t.block = State.reset.block

/-- From R121: the model faults. A step faults exactly on the accesses the rule lists, with the rule's codes, and
records the access (a CMD write with its whole value) or the index. -/
def Obligations.FaultsAreExactlyUnwrittenUses : Prop :=
  (∀ (s : State) (f : Fault), step s = .fault f ↔
    ∃ a rest, s.pending = a :: rest ∧
      ((a = .read 0 ∧ s.block.pv = false ∧ f = .unwrittenPattern (.read 0)) ∨
       (∃ v, a = .write 7 v ∧ s.block.pv = false ∧ f = .unwrittenPattern (.write 7 v)) ∨
       (∃ i, (i = 2 ∨ i = 3 ∨ i = 4 ∨ i = 5) ∧ a = .read i ∧ s.block.fv = false ∧
          f = .unwrittenFields (regAt i)) ∨
       (a = .read 6 ∧ s.block.tv = false ∧ f = .unwrittenText .textLen) ∨
       (∃ k : BitVec 7, k.toNat ≤ 71 ∧ a = .readText k ∧ s.block.tv = false ∧ f = .unwrittenText (.text k)))) ∧
  (∀ a, Fault.code (.unwrittenPattern a) = 1) ∧ (∀ r, Fault.code (.unwrittenFields r) = 2) ∧
    ∀ u, Fault.code (.unwrittenText u) = 3

/-- R120: the block never turns an access away: no step is refused, and no command is. -/
def Obligations.NothingIsRefused : Prop :=
  ∀ (s : State) (i : Instr) (r : Refusal), step s ≠ .refused r ∧ exec i s ≠ .refused r

/-- R24: nothing clears PV, FV or TV except reset. -/
def Obligations.OnlyResetClearsValidBits : Prop :=
  ∀ s t : State, step s = .next t → (∀ rest, s.pending ≠ .reset :: rest) →
    (s.block.pv = true → t.block.pv = true) ∧ (s.block.fv = true → t.block.fv = true) ∧
      (s.block.tv = true → t.block.tv = true)

/-- The block in reset meets the invariant. -/
def Obligations.ResetMeetsInvariant : Prop :=
  BlockInvariant State.reset.block

/-- From R24 to R32: every step from a state whose block meets the invariant leaves a block that meets it: results only
after a PATTERN write, MLEN and FPREC legal, fields in range with the display mark set, text of at most 71 legal
characters and zero fill. -/
def Obligations.StepKeepsInvariant : Prop :=
  ∀ s t : State, BlockInvariant s.block → step s = .next t → BlockInvariant t.block

/-- From R57, R143, R144, with logs 1 and 6: a step from a state whose host has an access left and keeps its side of the
contract is the access's own next state, and the rest of the list keeps the contract there. The list stands in the
state by log 1 (DESIGN CHOICE), and goes on after a RESET by log 6 (DEDUCED). -/
def Obligations.ProtocolIsKept : Prop :=
  ∀ s : State, s.pending ≠ [] → obeysProtocol s.block.pv s.block.fv s.block.tv s.pending = true →
    ∃ t : State, step s = .next t ∧ t.pending = s.pending.tail ∧
      obeysProtocol t.block.pv t.block.fv t.block.tv t.pending = true

/-- A program that keeps the contract when nothing has been written, loaded at power-on, keeps it there. Loading is the
model's form (DESIGN CHOICE, log 1). -/
def Obligations.LoadedProgramMeetsProtocol : Prop :=
  ∀ program : List HostAccess, obeysProtocol false false false program = true →
    let s := State.reset.loadProgram program
    s.pending = program ∧ obeysProtocol s.block.pv s.block.fv s.block.tv s.pending = true

/-- From R57, R58, R143, R144, with logs 1 and 6: a host that keeps its side of the contract never meets a model fault:
from every state, the run of its whole list ends with the list exhausted, one value observed for each read, and the
earlier observations kept. That the list stands in the state is log 1 (DESIGN CHOICE); that it goes on after a RESET,
and that a RESET keeps the observations, is log 6 (DEDUCED). -/
def Obligations.ProtocolRunCompletes : Prop :=
  ∀ s : State, obeysProtocol s.block.pv s.block.fv s.block.tv s.pending = true →
    ∃ (t : State) (values : List HostValue), Sys2Proof.core.run s.pending.length s = .next t ∧
      t.pending = [] ∧ t.observed = s.observed ++ values ∧ values.length = countReads s.pending

/-- From R58, R121, with logs 1 and 6: a host list that breaks the contract ends its run at a model fault. That the list
stands in the state is log 1 (DESIGN CHOICE); that a breach after a RESET is still met, because the list goes on, is
log 6 (DEDUCED). -/
def Obligations.ProtocolBreachFaults : Prop :=
  ∀ s : State, obeysProtocol s.block.pv s.block.fv s.block.tv s.pending = false →
    ∃ f : Fault, Sys2Proof.core.run s.pending.length s = .fault f
end

