-- ==== Sys2Proof/Laws/Assembler.lean ====
section
/-! SUPPORT. What the case of a letter can be for the assembler (30_encoding.md R72). -/

namespace Sys2Proof.Machine

/-- A lower-case letter becomes the letter 32 codes below, any other character stays. -/
theorem upperChar_cases (c : Char) :
    (97 ≤ c.toNat ∧ c.toNat ≤ 122 ∧ (upperChar c).toNat = c.toNat - 32) ∨
      (upperChar c = c ∧ ¬(97 ≤ c.toNat ∧ c.toNat ≤ 122)) := by
  unfold upperChar
  by_cases h : 97 ≤ c.toNat ∧ c.toNat ≤ 122
  · refine .inl ⟨h.1, h.2, ?_⟩
    simp only [h.1, h.2, decide_true, Bool.and_self, if_true]
    generalize c.toNat = n at h
    obtain ⟨h1, h2⟩ := h
    interval_cases n <;> decide
  · exact .inr ⟨by simp; intro a b; exact absurd ⟨a, b⟩ h, h⟩

theorem upperChar_upperChar (c : Char) : upperChar (upperChar c) = upperChar c := by
  rcases upperChar_cases c with ⟨h1, h2, h3⟩ | ⟨h, _⟩
  · rcases upperChar_cases (upperChar c) with ⟨k1, _, _⟩ | ⟨k, _⟩
    · omega
    · exact k
  · rw [h, h]

/-- A LEN the assembler accepts fits the field (30_encoding.md R64, R72). -/
theorem parseLen_fits {cs : List Char} {n : Nat} (h : parseLen cs = .ok n) : lenFits n = true := by
  unfold parseLen at h
  split at h
  · split at h
    · cases h; assumption
    · cases h
  · cases h

end Sys2Proof.Machine
end

