-- ==== Sys2Proof/Laws/State.lean ====
section
/-! SUPPORT. One lemma per field per update of the block and of the state, so that no proof unfolds a record update.
Together they are the write matrix of 10_state.md R37. -/

namespace Sys2Proof.Machine

/-! ### a host write of PATTERN (20_memory.md R44) -/

@[simp] theorem Block.writePattern_pattern (v : Word) (b : Block) : (b.writePattern v).pattern = v := rfl
@[simp] theorem Block.writePattern_pv (v : Word) (b : Block) : (b.writePattern v).pv = true := rfl
@[simp] theorem Block.writePattern_fv (v : Word) (b : Block) : (b.writePattern v).fv = b.fv := rfl
@[simp] theorem Block.writePattern_tv (v : Word) (b : Block) : (b.writePattern v).tv = b.tv := rfl
@[simp] theorem Block.writePattern_fprec (v : Word) (b : Block) : (b.writePattern v).fprec = b.fprec := rfl
@[simp] theorem Block.writePattern_mlen (v : Word) (b : Block) : (b.writePattern v).mlen = b.mlen := rfl
@[simp] theorem Block.writePattern_sign (v : Word) (b : Block) : (b.writePattern v).sign = b.sign := rfl
@[simp] theorem Block.writePattern_expRaw (v : Word) (b : Block) : (b.writePattern v).expRaw = b.expRaw := rfl
@[simp] theorem Block.writePattern_expUnb (v : Word) (b : Block) : (b.writePattern v).expUnb = b.expUnb := rfl
@[simp] theorem Block.writePattern_mant (v : Word) (b : Block) : (b.writePattern v).mant = b.mant := rfl
@[simp] theorem Block.writePattern_textLen (v : Word) (b : Block) : (b.writePattern v).textLen = b.textLen := rfl
@[simp] theorem Block.writePattern_text (v : Word) (b : Block) : (b.writePattern v).text = b.text := rfl

/-! ### an extract's writes (40_extract.md R81, R86) -/

@[simp] theorem Block.writeFields_pattern (p : Precision) (f : Fields) (b : Block) : (b.writeFields p f).pattern = b.pattern := rfl
@[simp] theorem Block.writeFields_pv (p : Precision) (f : Fields) (b : Block) : (b.writeFields p f).pv = b.pv := rfl
@[simp] theorem Block.writeFields_fv (p : Precision) (f : Fields) (b : Block) : (b.writeFields p f).fv = true := rfl
@[simp] theorem Block.writeFields_tv (p : Precision) (f : Fields) (b : Block) : (b.writeFields p f).tv = b.tv := rfl
@[simp] theorem Block.writeFields_fprec (p : Precision) (f : Fields) (b : Block) : (b.writeFields p f).fprec = p := rfl
@[simp] theorem Block.writeFields_mlen (p : Precision) (f : Fields) (b : Block) : (b.writeFields p f).mlen = BitVec.ofNat 3 (layout p).mantissaBytes := rfl
@[simp] theorem Block.writeFields_sign (p : Precision) (f : Fields) (b : Block) : (b.writeFields p f).sign = f.sign := rfl
@[simp] theorem Block.writeFields_expRaw (p : Precision) (f : Fields) (b : Block) : (b.writeFields p f).expRaw = f.expRaw := rfl
@[simp] theorem Block.writeFields_expUnb (p : Precision) (f : Fields) (b : Block) : (b.writeFields p f).expUnb = f.expUnb := rfl
@[simp] theorem Block.writeFields_mant (p : Precision) (f : Fields) (b : Block) : (b.writeFields p f).mant = f.mant := rfl
@[simp] theorem Block.writeFields_textLen (p : Precision) (f : Fields) (b : Block) : (b.writeFields p f).textLen = b.textLen := rfl
@[simp] theorem Block.writeFields_text (p : Precision) (f : Fields) (b : Block) : (b.writeFields p f).text = b.text := rfl

/-! ### a render's writes (41_render.md R104) -/

@[simp] theorem Block.writeText_pattern (str : List Char) (b : Block) : (b.writeText str).pattern = b.pattern := rfl
@[simp] theorem Block.writeText_pv (str : List Char) (b : Block) : (b.writeText str).pv = b.pv := rfl
@[simp] theorem Block.writeText_fv (str : List Char) (b : Block) : (b.writeText str).fv = b.fv := rfl
@[simp] theorem Block.writeText_tv (str : List Char) (b : Block) : (b.writeText str).tv = true := rfl
@[simp] theorem Block.writeText_fprec (str : List Char) (b : Block) : (b.writeText str).fprec = b.fprec := rfl
@[simp] theorem Block.writeText_mlen (str : List Char) (b : Block) : (b.writeText str).mlen = b.mlen := rfl
@[simp] theorem Block.writeText_sign (str : List Char) (b : Block) : (b.writeText str).sign = b.sign := rfl
@[simp] theorem Block.writeText_expRaw (str : List Char) (b : Block) : (b.writeText str).expRaw = b.expRaw := rfl
@[simp] theorem Block.writeText_expUnb (str : List Char) (b : Block) : (b.writeText str).expUnb = b.expUnb := rfl
@[simp] theorem Block.writeText_mant (str : List Char) (b : Block) : (b.writeText str).mant = b.mant := rfl
@[simp] theorem Block.writeText_textLen (str : List Char) (b : Block) : (b.writeText str).textLen = BitVec.ofNat 64 str.length := rfl
@[simp] theorem Block.writeText_text (str : List Char) (b : Block) : (b.writeText str).text = textOf str := rfl

/-! ### setting PV alone -/

@[simp] theorem Block.setPatternValid_pattern (b : Block) : (b.setPatternValid).pattern = b.pattern := rfl
@[simp] theorem Block.setPatternValid_pv (b : Block) : (b.setPatternValid).pv = true := rfl
@[simp] theorem Block.setPatternValid_fv (b : Block) : (b.setPatternValid).fv = b.fv := rfl
@[simp] theorem Block.setPatternValid_tv (b : Block) : (b.setPatternValid).tv = b.tv := rfl
@[simp] theorem Block.setPatternValid_fprec (b : Block) : (b.setPatternValid).fprec = b.fprec := rfl
@[simp] theorem Block.setPatternValid_mlen (b : Block) : (b.setPatternValid).mlen = b.mlen := rfl
@[simp] theorem Block.setPatternValid_sign (b : Block) : (b.setPatternValid).sign = b.sign := rfl
@[simp] theorem Block.setPatternValid_expRaw (b : Block) : (b.setPatternValid).expRaw = b.expRaw := rfl
@[simp] theorem Block.setPatternValid_expUnb (b : Block) : (b.setPatternValid).expUnb = b.expUnb := rfl
@[simp] theorem Block.setPatternValid_mant (b : Block) : (b.setPatternValid).mant = b.mant := rfl
@[simp] theorem Block.setPatternValid_textLen (b : Block) : (b.setPatternValid).textLen = b.textLen := rfl
@[simp] theorem Block.setPatternValid_text (b : Block) : (b.setPatternValid).text = b.text := rfl

/-! ### The state around the block -/

@[simp] theorem State.observe_block (x : HostValue) (s : State) : (s.observe x).block = s.block := rfl
@[simp] theorem State.observe_pending (x : HostValue) (s : State) : (s.observe x).pending = s.pending := rfl
@[simp] theorem State.observe_observed (x : HostValue) (s : State) : (s.observe x).observed = s.observed ++ [x] := rfl
@[simp] theorem State.resetBlock_block (s : State) : (s.resetBlock).block = Block.reset := rfl
@[simp] theorem State.resetBlock_pending (s : State) : (s.resetBlock).pending = s.pending := rfl
@[simp] theorem State.resetBlock_observed (s : State) : (s.resetBlock).observed = s.observed := rfl

/-! ### The block in reset (10_state.md R36) -/

@[simp] theorem Block.reset_pattern : Block.reset.pattern = 0 := rfl
@[simp] theorem Block.reset_pv : Block.reset.pv = false := rfl
@[simp] theorem Block.reset_fv : Block.reset.fv = false := rfl
@[simp] theorem Block.reset_tv : Block.reset.tv = false := rfl
@[simp] theorem Block.reset_fprec : Block.reset.fprec = .single := rfl
@[simp] theorem Block.reset_mlen : Block.reset.mlen = 0 := rfl
@[simp] theorem Block.reset_sign : Block.reset.sign = 0 := rfl
@[simp] theorem Block.reset_expRaw : Block.reset.expRaw = 0 := rfl
@[simp] theorem Block.reset_expUnb : Block.reset.expUnb = 0 := rfl
@[simp] theorem Block.reset_mant : Block.reset.mant = 0 := rfl
@[simp] theorem Block.reset_textLen : Block.reset.textLen = 0 := rfl
@[simp] theorem State.reset_block : State.reset.block = Block.reset := rfl

end Sys2Proof.Machine
end

