-- ==== Sys2Proof/Laws/Ops.lean ====
section
/-! SUPPORT. One lemma per shared operation that says everything it can do. -/

namespace Sys2Proof.Machine

variable {i : Instr} {effect : Block → Block} {s t : State}

/-! ### Running a command (30_encoding.md R68) -/

theorem runCommand_of_pv (h : s.block.pv = true) :
    runCommand i effect s = .next { s with block := effect s.block } := by
  simp [runCommand, h]

theorem runCommand_of_not_pv (h : s.block.pv = false) :
    runCommand i effect s = .fault (.unwrittenPattern (cmdWrite (encode i))) := by
  simp [runCommand, h, raiseModelFault]

theorem runCommand_next_iff :
    runCommand i effect s = .next t ↔ s.block.pv = true ∧ t = { s with block := effect s.block } := by
  cases h : s.block.pv
  · simp [runCommand_of_not_pv h]
  · simp [runCommand_of_pv h, eq_comm]

/-! ### The record of a model fault (60_exceptions.md R121) -/

@[simp] theorem Fault.code_recordAccess (a : HostAccess) (f : Fault) : (f.recordAccess a).code = f.code := by
  cases f <;> rfl

@[simp] theorem recordAccess_next (a : HostAccess) (s : State) : recordAccess a (.next s) = .next s := rfl
@[simp] theorem recordAccess_fault (a : HostAccess) (f : Fault) :
    recordAccess a (.fault f) = .fault (f.recordAccess a) := rfl
@[simp] theorem recordAccess_refused (a : HostAccess) (r : Refusal) : recordAccess a (.refused r) = .refused r := rfl

/-- The record of a fault is all that `recordAccess` changes. -/
theorem recordAccess_next_iff {a : HostAccess} {r : Result} : recordAccess a r = .next t ↔ r = .next t := by
  cases r <;> simp

theorem recordAccess_refused_iff {a : HostAccess} {r : Result} {x : Refusal} :
    recordAccess a r = .refused x ↔ r = .refused x := by
  cases r <;> simp

/-! ### Host reads (20_memory.md R43, R45) -/

/-- A REG location holds a value when it always does, or when its valid bit is set (10_state.md R31). -/
def hasValue (b : Block) : Reg → Bool
  | .pattern => b.pv
  | .status => true
  | .sign => b.fv
  | .expRaw => b.fv
  | .expUnb => b.fv
  | .mant => b.fv
  | .textLen => b.tv
  | .cmd => true

theorem readReg_ok_iff (b : Block) (r : Reg) : (∃ v, readReg b r = .ok v) ↔ hasValue b r = true := by
  cases r <;> simp [readReg, hasValue] <;> split <;> simp_all

theorem readText_unbacked (b : Block) (k : BitVec 7) (h : 72 ≤ k.toNat) : readText b k = .ok 0 := by
  simp [readText, Nat.not_lt.mpr h]

theorem readText_backed (b : Block) (k : BitVec 7) (h : k.toNat < 72) (htv : b.tv = true) :
    readText b k = .ok (b.textAt k.toNat) := by
  simp [readText, h, htv]

theorem readText_unwritten (b : Block) (k : BitVec 7) (h : k.toNat < 72) (htv : b.tv = false) :
    readText b k = .error (.unwrittenText (.text k)) := by
  simp [readText, h, htv]

/-! ### The REG map is one to one (20_memory.md R40, R21: no alias) -/

theorem regAt_regIndex (r : Reg) : regAt (regIndex r) = r := by cases r <;> rfl

theorem regIndex_regAt (i : BitVec 3) : regIndex (regAt i) = i := by
  revert i; decide

/-! ### The TEXT buffer (41_render.md R104) -/

theorem textAt_writeText (str : List Char) (b : Block) (k : Nat) (h : k < 72) :
    (b.writeText str).textAt k = (str.map charCode).getD k 0 := by
  have h' : k < Config.textBytes := h
  simp [Block.textAt, textOf, h', Vector.getD]

end Sys2Proof.Machine
end

