-- ==== Sys2Proof/Laws/Extract.lean ====
section
/-! SUPPORT. What each field of an extract is as a number (40_extract.md R82 to R84, R87 to R89): one lemma per field
and precision, so that no proof unfolds the slices. -/

namespace Sys2Proof.Machine

/-- An OR with bits below a power of two is an addition. -/
theorem two_pow_or_eq_add (a b k : Nat) (h : b < 2 ^ k) : (2 ^ k * a) ||| b = 2 ^ k * a + b :=
  (Nat.two_pow_add_eq_or_of_lt h a).symm

theorem extractLsb_full (v : Word) : v.extractLsb 63 0 = v := by
  ext i hi
  simp [BitVec.extractLsb]

/-- The subtraction of the bias is exact (40_extract.md R92). -/
theorem unbias_toInt (p : Precision) (e : BitVec 12) (h : e.toNat < 2 ^ 11) :
    (unbias p e).toInt = (e.toNat : Int) - (layout p).bias := by
  have h12 : (e - BitVec.ofNat 12 (layout p).bias).toInt = (e.toNat : Int) - (layout p).bias := by
    cases p <;> rw [BitVec.toInt_eq_toNat_cond, BitVec.toNat_sub] <;> simp [layout] <;> split <;> omega
  rw [unbias, BitVec.toInt_signExtend_of_le (by omega), h12]

/-! ### Single -/

theorem singleFields_sign_toNat (v : Word) : (singleFields v).sign.toNat = v.toNat % 2 ^ 32 / 2 ^ 31 := by
  simp [singleFields, BitVec.extractLsb, BitVec.extractLsb'_toNat, Nat.shiftRight_eq_div_pow]
  omega

theorem singleFields_expRaw_toNat (v : Word) :
    (singleFields v).expRaw.toNat = v.toNat % 2 ^ 32 / 2 ^ 23 % 2 ^ 8 := by
  simp [singleFields, BitVec.extractLsb, BitVec.extractLsb'_toNat, Nat.shiftRight_eq_div_pow]
  omega

theorem singleFields_mant_toNat (v : Word) : (singleFields v).mant.toNat = 2 ^ 23 + v.toNat % 2 ^ 23 := by
  have h := two_pow_or_eq_add 1 (v.toNat % 2 ^ 32 % 2 ^ 23) 23 (by omega)
  simp [singleFields, BitVec.extractLsb, BitVec.extractLsb'_toNat, Nat.shiftRight_eq_div_pow] at h ⊢
  rw [Nat.mod_eq_of_lt (b := 18446744073709551616) (by omega), h]

theorem singleFields_expUnb_toInt (v : Word) :
    (singleFields v).expUnb.toInt = ((v.toNat % 2 ^ 32 / 2 ^ 23 % 2 ^ 8 : Nat) : Int) - 127 := by
  have h : (((v.extractLsb 31 0).extractLsb 30 23).setWidth 12).toNat = v.toNat % 2 ^ 32 / 2 ^ 23 % 2 ^ 8 := by
    simp [BitVec.extractLsb, BitVec.extractLsb'_toNat, Nat.shiftRight_eq_div_pow]
    omega
  change (unbias .single _).toInt = _
  rw [unbias_toInt _ _ (by rw [h]; omega), h]
  rfl

/-! ### Double -/

theorem doubleExponent_toNat (b : BitVec 64) : (doubleExponent b).toNat = b.toNat / 2 ^ 52 % 2 ^ 11 := by
  have h := two_pow_or_eq_add (b.toNat / 2 ^ 60 % 2 ^ 3) (b.toNat / 2 ^ 52 % 2 ^ 8) 8 (by omega)
  have h0 : ∀ x, (x % 8) <<< 8 % 2048 = 2 ^ 8 * (x % 8) := fun x => by rw [Nat.shiftLeft_eq]; omega
  simp [doubleExponent, BitVec.extractLsb, BitVec.extractLsb'_toNat, Nat.shiftRight_eq_div_pow] at h ⊢
  rw [Nat.mod_eq_of_lt (a := _ / _ % 256) (by omega), Nat.mod_eq_of_lt (a := _ / _ % 8) (by omega), h0,
    show (2 : Nat) ^ 8 = 256 from rfl, h]
  omega

theorem doubleFields_sign_toNat (v : Word) : (doubleFields v).sign.toNat = v.toNat / 2 ^ 63 := by
  simp [doubleFields, BitVec.extractLsb, BitVec.extractLsb'_toNat, Nat.shiftRight_eq_div_pow]
  omega

theorem doubleFields_expRaw_toNat (v : Word) : (doubleFields v).expRaw.toNat = v.toNat / 2 ^ 52 % 2 ^ 11 := by
  simp only [doubleFields, extractLsb_full, BitVec.toNat_setWidth, doubleExponent_toNat]
  omega

theorem doubleFields_mant_toNat (v : Word) : (doubleFields v).mant.toNat = 2 ^ 52 + v.toNat % 2 ^ 52 := by
  have h := two_pow_or_eq_add 1 (v.toNat % 2 ^ 52) 52 (by omega)
  simp [doubleFields, BitVec.extractLsb, BitVec.extractLsb'_toNat, Nat.shiftRight_eq_div_pow] at h ⊢
  rw [Nat.mod_eq_of_lt (b := 18446744073709551616) (by omega), h]

theorem doubleFields_expUnb_toInt (v : Word) :
    (doubleFields v).expUnb.toInt = ((v.toNat / 2 ^ 52 % 2 ^ 11 : Nat) : Int) - 1023 := by
  have h : ((doubleExponent (v.extractLsb 63 0)).setWidth 12).toNat = v.toNat / 2 ^ 52 % 2 ^ 11 := by
    rw [extractLsb_full]
    simp [doubleExponent_toNat]
    omega
  change (unbias .double _).toInt = _
  rw [unbias_toInt _ _ (by rw [h]; omega), h]
  rfl

/-! ### A Single command sees the low half only (10_state.md R23) -/

theorem extractLsb_low (v : Word) : v.extractLsb 31 0 = v.setWidth 32 := by
  apply BitVec.eq_of_toNat_eq
  simp [BitVec.extractLsb]

theorem singleFields_congr {v w : Word} (h : v.setWidth 32 = w.setWidth 32) : singleFields v = singleFields w := by
  simp only [singleFields, extractLsb_low, h]

theorem renderSource_single_congr {v w : Word} (h : v.setWidth 32 = w.setWidth 32) :
    renderSource .single v = renderSource .single w := by
  simp only [renderSource, extractLsb_low, h]

end Sys2Proof.Machine
end

