-- ==== Sys2Proof/Laws/PerInstr.lean ====
section
/-! SUPPORT. Facts about every command as syntax, one lemma per constructor. -/

namespace Sys2Proof.Laws.SelectsItsRow

/-- The word of a command selects its own row of the opcode map and no other (30_encoding.md R67). -/
def Statement (i : Instr) : Prop :=
  ∀ r ∈ opcodeTable, r.selects (encode i) = decide (r.mnemonic = i.mnemonic)

/-- What a word selects is read from its three low bits, so its upper bits do not matter (30_encoding.md R67). -/
theorem selects_eq_of_low_bits (r : OpcodeRow) (hr : r ∈ opcodeTable) (w : Byte) :
    r.selects w = r.selects (w &&& 0x07#8) := by
  revert w
  simp only [opcodeTable, List.mem_cons, List.not_mem_nil, or_false] at hr
  rcases hr with rfl | rfl | rfl | rfl <;> decide

/-- The three low bits of a render word: MODE, PREC and OP (30_encoding.md R61). -/
theorem encodeRender_low_bits (mode : Byte) (p : Precision) (len : Nat) (g : Bool) :
    encodeRender mode p len g &&& 0x07#8 = ((mode <<< 2) ||| (p.bit <<< 1) ||| 1#8) &&& 0x07#8 := by
  have h : ∀ l b : Byte, (l <<< 4 ||| b <<< 3) &&& 0x07#8 = 0 := fun l b => by
    ext k hk; interval_cases k <;> simp
  rw [encodeRender, BitVec.or_assoc, BitVec.or_assoc, BitVec.and_or_distrib_right, h, ← BitVec.or_assoc]
  exact BitVec.zero_or

theorem exts : Statement .exts := by unfold Statement; decide

theorem extd : Statement .extd := by unfold Statement; decide

theorem rndh (prec : Precision) (len : Nat) (sep : Bool) : Statement (.rndh prec len sep) := by
  intro r hr
  rw [selects_eq_of_low_bits r hr, encode, encodeRender_low_bits, Instr.mnemonic]
  revert r
  cases prec <;> decide

theorem rndb (prec : Precision) (len : Nat) (sep : Bool) : Statement (.rndb prec len sep) := by
  intro r hr
  rw [selects_eq_of_low_bits r hr, encode, encodeRender_low_bits, Instr.mnemonic]
  revert r
  cases prec <;> decide

end Sys2Proof.Laws.SelectsItsRow
end

