-- ==== Sys2Proof/Laws/Render.lean ====
section
/-! SUPPORT. The rendered string: its length and the character at each place (41_render.md R103, R105, R110). -/

namespace Sys2Proof.Machine

variable {unit : Byte → List Char} {u : Nat}

theorem length_hexUnit (b : Byte) : (hexUnit b).length = 2 := rfl

theorem length_binUnit (b : Byte) : (binUnit b).length = 8 := rfl

theorem length_separatorAfter (sep : Bool) (p : Nat) :
    (separatorAfter sep p).length = if sep = true ∧ p ≠ 0 then 1 else 0 := by
  cases sep <;> by_cases h : p = 0 <;> simp [separatorAfter, h]

/-- The length law of 41_render.md R110, for units of u characters. -/
theorem length_renderString (hu : ∀ b, (unit b).length = u) (sep : Bool) (src : Word) (n : Nat) :
    (renderString unit sep src n).length = n * u + (if sep then n - 1 else 0) := by
  induction n with
  | zero => simp [renderString]
  | succ p ih =>
    simp only [renderString, List.length_append, hu, length_separatorAfter, ih]
    cases sep
    · simp [Nat.succ_mul]; omega
    · by_cases h : p = 0
      · simp [h]
      · simp [h, Nat.succ_mul]; omega

/-- A place in the last n − 1 units of an n-unit string is the place in the string of those units. -/
theorem renderString_getElem?_skip (hu : ∀ b, (unit b).length = u) (sep : Bool) (src : Word) (p k : Nat)
    (hp : p ≠ 0) :
    (renderString unit sep src (p + 1))[u + (if sep then 1 else 0) + k]? = (renderString unit sep src p)[k]? := by
  rw [renderString, List.getElem?_append_right]
  · congr 1
    rw [List.length_append, hu, length_separatorAfter]
    cases sep <;> simp [hp]
  · rw [List.length_append, hu, length_separatorAfter]
    cases sep <;> simp [hp]

/-- The unit of byte position q starts at character (n − 1 − q) · stride (41_render.md R103): there stands what the
string of the q + 1 low bytes begins with. -/
theorem renderString_getElem?_unit (hu : ∀ b, (unit b).length = u) (sep : Bool) (src : Word) (n q j : Nat)
    (hq : q < n) :
    (renderString unit sep src n)[(n - 1 - q) * (u + if sep then 1 else 0) + j]? =
      (renderString unit sep src (q + 1))[j]? := by
  induction n with
  | zero => omega
  | succ p ih =>
    by_cases h : q = p
    · subst h; simp
    · have hlt : q < p := by omega
      rw [← ih hlt, ← renderString_getElem?_skip hu sep src p _ (by omega)]
      have hm : p + 1 - 1 - q = (p - 1 - q) + 1 := by omega
      rw [hm, Nat.succ_mul]
      congr 1
      omega

/-- A digit of the unit of byte position q. -/
theorem renderString_getElem?_digit (hu : ∀ b, (unit b).length = u) (sep : Bool) (src : Word) (n q j : Nat)
    (hq : q < n) (hj : j < u) :
    (renderString unit sep src n)[(n - 1 - q) * (u + if sep then 1 else 0) + j]? = (unit (byteAt src q))[j]? := by
  rw [renderString_getElem?_unit hu sep src n q j hq, renderString, List.append_assoc,
    List.getElem?_append_left (by rw [hu]; exact hj)]

/-- The separator after the unit of byte position q (41_render.md R105). -/
theorem renderString_getElem?_separator (hu : ∀ b, (unit b).length = u) (src : Word) (n q : Nat) (hq : q < n)
    (h0 : q ≠ 0) : (renderString unit true src n)[(n - 1 - q) * (u + 1) + u]? = some (separator q) := by
  have h := renderString_getElem?_unit hu true src n q u hq
  rw [if_pos rfl] at h
  rw [h, renderString, List.append_assoc, List.getElem?_append_right (by rw [hu]), hu]
  simp [separatorAfter, h0]

/-- Every rendered string fits the buffer with a byte to spare (41_render.md R110, 10_state.md R32). -/
theorem length_renderString_le (hu : ∀ b, (unit b).length = u) (hu8 : u ≤ 8) (sep : Bool) (src : Word) (len : Nat) :
    (renderString unit sep src (clampLen len)).length ≤ 71 := by
  rw [length_renderString hu]
  have h8 : clampLen len ≤ 8 := by simp [clampLen]
  have h := Nat.mul_le_mul h8 hu8
  split <;> omega

/-! ### Characters and codes (41_render.md R105 to R107) -/

theorem hexDigit_code (d : BitVec 4) :
    (charCode (hexDigit d)).toNat = if d.toNat < 10 then 0x30 + d.toNat else 0x41 + (d.toNat - 10) := by
  revert d; decide

theorem bitDigit_code (b : Bool) : (charCode (bitDigit b)).toNat = 0x30 + b.toNat := by
  cases b <;> decide

theorem separator_code (q : Nat) :
    charCode (separator q) = if q % 4 = 0 then 0x20 else if q % 4 = 2 then 0x2C else 0x3A := by
  have h : q % 4 = 0 ∨ q % 4 = 1 ∨ q % 4 = 2 ∨ q % 4 = 3 := by omega
  rcases h with h | h | h | h <;> simp only [separator, h] <;> decide

/-! ### Numbers of the operands (41_render.md R101, 00_scope.md R14) -/

theorem renderSource_toNat (p : Precision) (v : Word) :
    (renderSource p v).toNat = if p = .double then v.toNat else v.toNat % 2 ^ 32 := by
  cases p
  · simp [renderSource, BitVec.extractLsb]; omega
  · simp [renderSource, extractLsb_full]

theorem byteAt_toNat (v : Word) (p : Nat) : (byteAt v p).toNat = v.toNat / 2 ^ (8 * p) % 256 := by
  simp [byteAt, Nat.shiftRight_eq_div_pow]

/-! ### The buffer after a render (41_render.md R104) -/

theorem textAt_writeText_getElem? {b : Block} {str : List Char} {k : Nat} (h : k < 72) :
    (b.writeText str).textAt k = (str[k]?.map charCode).getD 0 := by
  rw [textAt_writeText _ _ _ h]
  simp [List.getD]

theorem writeText_textLen_toNat {b : Block} {str : List Char} (h : str.length ≤ 71) :
    (b.writeText str).textLen.toNat = str.length := by
  simp
  omega

theorem textAt_writeText_fill {b : Block} {str : List Char} {k : Nat} (h : str.length ≤ k) (hk : k < 72) :
    (b.writeText str).textAt k = 0 := by
  rw [textAt_writeText_getElem? hk, List.getElem?_eq_none h]
  rfl

end Sys2Proof.Machine
end

