-- ==== Sys2Proof/Laws/Step.lean ====
section
/-! SUPPORT. What an executed command and one step can do, said once. -/

namespace Sys2Proof.Machine

variable {i : Instr} {s t : State} {a : HostAccess} {rest : List HostAccess}

/-- The change of the block that a command makes when it completes (10_state.md R37). -/
def commandEffect : Instr → Block → Block
  | .exts, b => b.writeFields .single (singleFields b.pattern)
  | .extd, b => b.writeFields .double (doubleFields b.pattern)
  | .rndh p len g, b => b.writeText (renderString hexUnit g (renderSource p b.pattern) (clampLen len))
  | .rndb p len g, b => b.writeText (renderString binUnit g (renderSource p b.pattern) (clampLen len))

/-- Every command is its change of the block, run as 30_encoding.md R68 says. -/
theorem exec_eq_runCommand (i : Instr) (s : State) : exec i s = runCommand i (commandEffect i) s := by
  cases i <;> rfl

theorem exec_of_pv (i : Instr) (h : s.block.pv = true) :
    exec i s = .next { s with block := commandEffect i s.block } := by
  rw [exec_eq_runCommand, runCommand_of_pv h]

theorem exec_of_not_pv (i : Instr) (h : s.block.pv = false) :
    exec i s = .fault (.unwrittenPattern (cmdWrite (encode i))) := by
  rw [exec_eq_runCommand, runCommand_of_not_pv h]

theorem exec_next_iff :
    exec i s = .next t ↔ s.block.pv = true ∧ t = { s with block := commandEffect i s.block } := by
  rw [exec_eq_runCommand, runCommand_next_iff]

theorem step_nil (h : s.pending = []) : step s = .next s := by
  simp [step, stepHost, h]

theorem step_cons (h : s.pending = a :: rest) : step s = hostAccess a { s with pending := rest } := by
  simp [step, stepHost, h]

/-- A CMD write that completes, and one that does not (30_encoding.md R68, 60_exceptions.md R121, R122). -/
theorem step_cmdWrite {v : Word} (h : s.pending = .write 7 v :: rest) :
    step s = if s.block.pv then .next { s with pending := rest, block := commandEffect (decode (commandWord v)) s.block }
      else .fault (.unwrittenPattern (.write 7 v)) := by
  rw [step_cons h]
  change recordAccess (.write 7 v) (exec (decode (commandWord v)) { s with pending := rest }) = _
  cases hpv : s.block.pv
  · rw [exec_of_not_pv (s := { s with pending := rest }) _ hpv]; rfl
  · rw [exec_of_pv (s := { s with pending := rest }) _ hpv]; rfl

/-- Everything a step that answers a next state can have done (20_memory.md R57): nothing; a PATTERN write; a command;
a write that has no effect; a read; a reset. -/
theorem step_next_cases (h : step s = .next t) :
    (s.pending = [] ∧ t = s) ∨
    ∃ a rest, s.pending = a :: rest ∧
      ((∃ v, a = .write 0 v ∧ t = { s with pending := rest, block := s.block.writePattern v }) ∨
       (∃ v, a = .write 7 v ∧ s.block.pv = true ∧
          t = { s with pending := rest, block := commandEffect (decode (commandWord v)) s.block }) ∨
       (∃ i v, a = .write i v ∧ i ≠ 0 ∧ i ≠ 7 ∧ t = { s with pending := rest }) ∨
       (∃ i v, a = .read i ∧ readReg s.block (regAt i) = .ok v ∧
          t = { s with pending := rest, observed := s.observed ++ [.reg v] }) ∨
       (∃ k c, a = .readText k ∧ readText s.block k = .ok c ∧
          t = { s with pending := rest, observed := s.observed ++ [.text c] }) ∨
       (a = .reset ∧ t = { s with pending := rest, block := Block.reset })) := by
  cases hp : s.pending with
  | nil =>
    rw [step_nil hp] at h
    exact .inl ⟨rfl, by cases h; rfl⟩
  | cons a rest =>
    rw [step_cons hp] at h
    refine .inr ⟨a, rest, rfl, ?_⟩
    cases a with
    | write i v =>
      rw [← regIndex_regAt i]
      simp only [hostAccess, hostWrite] at h
      cases hr : regAt i <;> simp only [hr] at h
      case pattern => cases h; exact .inl ⟨v, rfl, rfl⟩
      case cmd =>
        obtain ⟨hpv, rfl⟩ := exec_next_iff.mp (recordAccess_next_iff.mp h)
        exact .inr (.inl ⟨v, rfl, hpv, rfl⟩)
      all_goals
        cases h
        exact .inr (.inr (.inl ⟨_, v, rfl, by decide, by decide, rfl⟩))
    | read i =>
      simp only [hostAccess, hostRead] at h
      cases hr : readReg s.block (regAt i) <;> simp only [hr, raiseModelFault] at h
      · cases h
      · cases h; exact .inr (.inr (.inr (.inl ⟨i, _, rfl, hr, rfl⟩)))
    | readText k =>
      simp only [hostAccess, hostReadText] at h
      cases hr : readText s.block k <;> simp only [hr, raiseModelFault] at h
      · cases h
      · cases h; exact .inr (.inr (.inr (.inr (.inl ⟨k, _, rfl, hr, rfl⟩))))
    | reset =>
      cases h; exact .inr (.inr (.inr (.inr (.inr ⟨rfl, rfl⟩))))

end Sys2Proof.Machine
end

