-- ==== Sys2Proof/Tests/Slice0.lean ====
section
/-! SUPPORT. The model's own tests, and a witness for the hypotheses of every statement that has some. Expected values
are those of spec/95_test_vectors.md and of the examples in the rules; the source of each stands beside it. -/

namespace Sys2Proof.Tests

open Sys2Proof Sys2Proof.Machine

/-! ### Small states -/

/-- A machine whose host has written v to PATTERN and is about to make the accesses l. -/
def host (v : Word) (l : List HostAccess) : State :=
  { State.reset with block := Block.reset.writePattern v, pending := l }

/-- A machine whose host has written v to PATTERN. -/
def ready (v : Word) : State := host v []

/-- The block after an access that answers a next state. -/
def blockAfter : Result → Option Block
  | .next s => some s.block
  | .fault _ => none
  | .refused _ => none

/-- What the host has observed after an access that answers a next state. -/
def observedAfter : Result → Option (List HostValue)
  | .next s => some s.observed
  | .fault _ => none
  | .refused _ => none

/-- The fault an access ends in. -/
def faultOf : Result → Option Fault
  | .next _ => none
  | .fault f => some f
  | .refused _ => none

/-- The text and the length a render leaves. -/
def textAfter (r : Result) : Option (Nat × List Byte) :=
  (blockAfter r).map fun b => (b.textLen.toNat, b.text.toList.take b.textLen.toNat)

/-- The codes of a string, TEXT_LEN first. -/
def rendered (s : String) : Option (Nat × List Byte) :=
  some (s.toList.length, s.toList.map charCode)

/-- SIGN, EXP_RAW, EXP_UNB as a signed number, MANT, and the STATUS word. -/
def fieldsAfter (r : Result) : Option (Nat × Nat × Int × Nat × Nat) :=
  (blockAfter r).map fun b => (b.sign.toNat, b.expRaw.toNat, b.expUnb.toInt, b.mant.toNat, b.status.toNat)

/-! ### WellFormed: each check refuses an ill-formed term (30_encoding.md R64, R72) -/

theorem test_wellFormed_rndh_refuses_16 : (Instr.rndh .double 16 true).wellFormed = false := by decide
theorem test_wellFormed_rndh_accepts_15 : (Instr.rndh .double 15 true).wellFormed = true := by decide
theorem test_wellFormed_rndb_refuses_16 : (Instr.rndb .single 16 false).wellFormed = false := by decide
theorem test_wellFormed_rndb_accepts_15 : (Instr.rndb .single 15 false).wellFormed = true := by decide

/-! ### Decoding words written out from the encoding `LLLLSMPO` (30_encoding.md R61, R67, R72) -/

theorem test_decode_exts : decode 0b00000000 = .exts := by decide
/-- V-H10: bits 7:2 of 0xFC are ignored. -/
theorem test_decode_exts_ignored_bits : decode 0b11111100 = .exts := by decide
theorem test_decode_extd : decode 0b00000010 = .extd := by decide
theorem test_decode_extd_ignored_bits : decode 0b11110110 = .extd := by decide
/-- R72: `RNDH S, 4, G` = 0x49. -/
theorem test_decode_rndh : decode 0b01001001 = .rndh .single 4 true := by decide
/-- V-R6: 0xFB is `RNDH D, 15, G`. -/
theorem test_decode_rndh_len_15 : decode 0b11111011 = .rndh .double 15 true := by decide
/-- R72: `RNDB D, 8, N` = 0x87. -/
theorem test_decode_rndb : decode 0b10000111 = .rndb .double 8 false := by decide
/-- R72: `RNDB S, 1, G` = 0x1D. -/
theorem test_decode_rndb_single : decode 0b00011101 = .rndb .single 1 true := by decide
theorem test_decodeTableWord : decodeTableWord 8 0x8B = some (.rndh .double 8 true) := by decide
/-- Above the table's bits every bit counts as 0. -/
theorem test_decodeTableWord_masks : decodeTableWord 2 0xFF = some (.rndh .double 0 false) := by decide

/-! ### One step per command (95_test_vectors.md sections 2.1 to 2.3) -/

/-- V-S8: the smallest subnormal has exponent −127, not −126, and the mark. STATUS 0x33. -/
theorem test_exts_subnormal :
    fieldsAfter (exec .exts (ready 0x00000001)) = some (0, 0, -127, 0x800001, 0x33) := by decide
/-- V-S14 with the sign: the upper half is ignored. V-S6 has these fields. -/
theorem test_exts_upper_half :
    fieldsAfter (exec .exts (ready 0x0123456FFF800000)) = some (1, 0xFF, 128, 0x800000, 0x33) := by decide
/-- V-D12. STATUS 0x7B. -/
theorem test_extd_all_ones :
    fieldsAfter (exec .extd (ready 0xFFFFFFFFFFFFFFFF)) = some (1, 0x7FF, 1024, 0x1FFFFFFFFFFFFF, 0x7B) := by decide
/-- V-D13 and its mantissa bytes. -/
theorem test_extd_mantissa_bytes :
    (blockAfter (exec .extd (ready 0x3FB999999999999A))).map Block.mantissaBytes =
      some [0x19, 0x99, 0x99, 0x99, 0x99, 0x99, 0x9A] := by decide
/-- V-R1, the source's worked example W4. -/
theorem test_rndh_example :
    textAfter (exec (.rndh .single 4 true) (ready 0xABCDEF01)) = rendered "AB:CD,EF:01" := by decide
/-- V-R14: zero-extension, and the 8-unit separator layout. -/
theorem test_rndh_zero_extends :
    textAfter (exec (.rndh .single 8 true) (ready 0x0123456789ABCDEF)) = rendered "00:00,00:00 89:AB,CD:EF" := by decide
/-- V-R16. -/
theorem test_rndb_two_bytes :
    textAfter (exec (.rndb .double 2 true) (ready 0xA5C3)) = rendered "10100101:11000011" := by decide
/-- V-R24: LEN = 0 is the empty text. -/
theorem test_rndb_empty :
    textAfter (exec (.rndb .double 0 false) (ready 0x0123456789ABCDEF)) = rendered "" := by decide

/-! ### The host port (95_test_vectors.md section 2.4) -/

/-- V-H1. -/
theorem test_read_status_after_reset :
    observedAfter (step { State.reset with pending := [.read 1] }) = some [.reg 0] := by decide
/-- V-H2, with the bits above the command word set: R121 records the access, the whole written value. -/
theorem test_command_before_pattern :
    faultOf (step { State.reset with pending := [.write 7 0xFFFFFFFFFFFFFFFC] }) =
      some (.unwrittenPattern (.write 7 0xFFFFFFFFFFFFFFFC)) := by decide
/-- V-H3. -/
theorem test_read_pattern_before_write :
    (faultOf (step { State.reset with pending := [.read 0] })).map Fault.code = some 1 := by decide
/-- V-H4. -/
theorem test_read_sign_before_extract :
    (faultOf (step (host 0 [.read 2]))).map Fault.code = some 2 := by decide
/-- V-H5, V-H6. -/
theorem test_read_text_before_render :
    (faultOf (step (host 0 [.readText 0]))).map Fault.code = some 3 ∧
      (faultOf (step (host 0 [.read 6]))).map Fault.code = some 3 := by decide
/-- V-H7. -/
theorem test_write_status_has_no_effect :
    blockAfter (step { State.reset with pending := [.write 1 123] }) = some Block.reset := by decide
/-- V-H8. -/
theorem test_read_cmd : observedAfter (step { State.reset with pending := [.read 7] }) = some [.reg 0] := by decide
/-- V-H9. -/
theorem test_read_text_unbacked :
    observedAfter (step { State.reset with pending := [.readText 72] }) = some [.text 0] ∧
      observedAfter (step { State.reset with pending := [.readText 127] }) = some [.text 0] := by decide
/-- V-H11: CMD uses bits 7:0 of the value. -/
theorem test_cmd_ignores_upper_bits :
    fieldsAfter (step (host 0xFFFFFFFF3F800000 [.write 7 0xFFFFFFFFFFFFFF02])) =
      some (1, 0x7FF, 1024, 0x1FFFFF3F800000, 0x7B) := by decide
/-- Each row of the opcode table runs as the first instruction placed after reset. -/
theorem test_withFetchWord_runs :
    (fieldsAfter (step (State.reset.withFetchWord 8 0x00))).isSome = true ∧
      (fieldsAfter (step (State.reset.withFetchWord 8 0x02))).isSome = true ∧
      textAfter (step (State.reset.withFetchWord 8 0x49)) = rendered "00:00,00:00" ∧
      textAfter (step (State.reset.withFetchWord 8 0x1D)) = rendered "00000000" := by decide

/-! ### The assembler (30_encoding.md R72 to R74) -/

/-- R72. -/
theorem test_assemble_rndb :
    assembleCommand "RNDB".toList ["S".toList, "1".toList, "G".toList] = .ok (.rndb .single 1 true) := rfl
/-- P4 of 95_test_vectors.md, a line with a comment. -/
theorem test_assemble_line :
    assembleLine "WR   CMD, 0xFFFFFFFFFFFFFF02 ; bits 7:0".toList = .ok (some (.write 7 0xFFFFFFFFFFFFFF02)) := rfl
/-- R72: a LEN of 16 is refused. -/
theorem test_assemble_refuses_16 : assembleLine "RNDH D, 16, G".toList = .error .badLength := rfl
/-- R74: a program is the list of its accesses. The lower-case `rdt` is the model's choice (log 7). -/
theorem test_assemble_program :
    assembleProgram ["RESET".toList, "; a comment".toList, "rdt 100".toList] = .ok [.reset, .readText 100] := rfl

/-! ### Witnesses: for every statement with hypotheses, a state and operands that meet them -/

theorem witness_decodeEncode : (Instr.rndb .double 15 true).wellFormed = true := by decide
theorem witness_encodingTable : (15 : Nat) ≤ 15 := by decide
theorem witness_assemblerRefusesLongLen :
    parseDecimal "16".toList = some 16 ∧ 15 < 16 ∧ assembleCommand "EXTS".toList [] = .ok .exts := ⟨rfl, by decide, rfl⟩

/-- A CMD write, with PATTERN written and without. -/
theorem witness_cmdWrite :
    (host 5 [.write 7 0x8B]).pending = .write 7 0x8B :: [] ∧ (host 5 [.write 7 0x8B]).block.pv = true ∧
      { State.reset with pending := [.write 7 0x8B] : State }.pending = .write 7 0x8B :: [] ∧
      { State.reset with pending := [.write 7 0x8B] : State }.block.pv = false := by decide
/-- Each branch of the decode rule: the four patterns of the bits 2, 1 and 0. -/
theorem witness_executeBranches :
    (0x00 : Word).getLsbD 0 = false ∧ (0x00 : Word).getLsbD 1 = false ∧ (0x02 : Word).getLsbD 1 = true ∧
      (0x01 : Word).getLsbD 0 = true ∧ (0x01 : Word).getLsbD 2 = false ∧ (0x05 : Word).getLsbD 2 = true := by decide
theorem witness_noWordIsIllegal :
    (ready 5).block.pv = true ∧ (0xFC : Byte).getLsbD 0 = false ∧ (9 : Nat) ≤ 9 ∧ (15 : Nat) ≤ 15 := by decide
/-- A write of PATTERN, of CMD, and of the first and the last read-only index. -/
theorem witness_hostWrite :
    (host 5 [.write 0 7]).pending = .write 0 7 :: [] ∧ (host 5 [.write 7 0]).pending = .write 7 0 :: [] ∧
      (host 5 [.write 1 7]).pending = .write 1 7 :: [] ∧ (host 5 [.write 6 7]).pending = .write 6 7 :: [] := by decide
/-- A read with every valid bit clear, and one with the bits set, at the boundaries of each clause. -/
theorem witness_hostRead :
    { State.reset with pending := [.read 0] : State }.block.pv = false ∧
      (host 5 [.read 2]).block.fv = false ∧ (host 5 [.read 5]).block.fv = false ∧ (host 5 [.read 6]).block.tv = false ∧
      (host 5 [.read 7]).pending = .read 7 :: [] ∧ (host 5 [.read 1]).pending = .read 1 :: [] ∧
      (host 5 [.read 0]).block.pv = true := by decide
theorem witness_hostReadFields :
    (blockAfter (exec .exts (ready 5))).map (fun b => b.fv) = some true ∧
      (blockAfter (exec (.rndh .single 4 true) (ready 5))).map (fun b => b.tv) = some true := by decide
/-- TEXT indices 71 and 72, before and after a render; a text shorter than the buffer. -/
theorem witness_hostTextRead :
    72 ≤ (72 : BitVec 7).toNat ∧ (71 : BitVec 7).toNat < 72 ∧ (host 5 [.readText 71]).block.tv = false ∧
      (blockAfter (exec (.rndh .single 4 true) (ready 5))).map (fun b => (b.tv, b.textLen.toNat)) = some (true, 11) := by
  decide
/-- The last clause of the TEXT read: a block that meets the invariant, valid text, an index past it. -/
theorem witness_hostTextReadFill :
    ∃ s : State, BlockInvariant s.block ∧ s.block.tv = true ∧ s.block.textLen.toNat ≤ (71 : BitVec 7).toNat ∧
      (71 : BitVec 7).toNat < 72 ∧ s.pending = [.readText 71] := by
  refine ⟨{ host 0 [.readText 71] with block := (Block.reset.writePattern 0).writeText [] }, ?_, rfl, by decide,
    by decide, rfl⟩
  refine ⟨fun h => ?_, fun _ => rfl, fun _ => ⟨rfl, rfl⟩, fun h => ?_, fun _ => ⟨by decide, fun k hk => ?_⟩⟩
  · exact absurd h (by decide)
  · exact absurd h (by decide)
  · split
    · rename_i h
      exact absurd h (Nat.not_lt_zero k)
    · exact textAt_writeText_fill (Nat.zero_le k) hk
theorem witness_idle : State.reset.pending = [] := rfl
theorem witness_commandValid : (ready 0).block.pv = true ∧ State.reset.block.pv = false := by decide
theorem witness_exts_next : ∃ t, exec .exts (ready 0x3F800000) = .next t := ⟨_, rfl⟩
theorem witness_extd_next : ∃ t, exec .extd (ready 0x3FF0000000000000) = .next t := ⟨_, rfl⟩
/-- The patterns of the Single corner cases, each in a state on which EXTS completes. -/
theorem witness_singleCorners :
    (∃ t, exec .exts (ready 0x00000001) = .next t ∧ (ready 0x00000001).block.pattern.extractLsb' 23 8 = 0) ∧
      (∃ t, exec .exts (ready 0x7F800000) = .next t ∧ (ready 0x7F800000).block.pattern.extractLsb' 23 8 = 255) ∧
      (∃ t, exec .exts (ready 0xFFFFFFFF80000000) = .next t ∧
        (ready 0xFFFFFFFF80000000).block.pattern.setWidth 32 = (0x80000000 : BitVec 32)) ∧
      ∃ t, exec .exts (ready 0xFFFFFFFF00000000) = .next t ∧
        (ready 0xFFFFFFFF00000000).block.pattern.setWidth 32 = (0 : BitVec 32) :=
  ⟨⟨_, rfl, by decide⟩, ⟨_, rfl, by decide⟩, ⟨_, rfl, by decide⟩, ⟨_, rfl, by decide⟩⟩
/-- The patterns of the Double corner cases, each in a state on which EXTD completes. -/
theorem witness_doubleCorners :
    (∃ t, exec .extd (ready 0x8000000000000001) = .next t ∧
        (ready 0x8000000000000001).block.pattern.extractLsb' 52 11 = 0) ∧
      (∃ t, exec .extd (ready 0xFFF0000000000000) = .next t ∧
        (ready 0xFFF0000000000000).block.pattern.extractLsb' 52 11 = 0x7FF) ∧
      (∃ t, exec .extd (ready 0x8000000000000000) = .next t ∧
        (ready 0x8000000000000000).block.pattern = 0x8000000000000000) ∧
      ∃ t, exec .extd (ready 0) = .next t ∧ (ready 0).block.pattern = 0 :=
  ⟨⟨_, rfl, by decide⟩, ⟨_, rfl, by decide⟩, ⟨_, rfl, rfl⟩, ⟨_, rfl, rfl⟩⟩
theorem witness_render_next :
    (∃ t, exec (.rndh .single 15 true) (ready 5) = .next t) ∧ (∃ t, exec (.rndb .double 9 false) (ready 5) = .next t) ∧
      (∃ t, exec (.rndh .double 8 true) (ready 5) = .next t) ∧ ∃ t, exec (.rndb .double 8 false) (ready 5) = .next t :=
  ⟨⟨_, rfl⟩, ⟨_, rfl⟩, ⟨_, rfl⟩, ⟨_, rfl⟩⟩
/-- The clauses of the length law: n = 0, and n = 1 and n = 8 with and without separators. -/
theorem witness_renderLength :
    (∃ t, exec (.rndh .double 0 true) (ready 5) = .next t ∧ min 0 8 = 0) ∧
      (∃ t, exec (.rndh .double 1 true) (ready 5) = .next t ∧ 1 ≤ min 1 8) ∧
      (∃ t, exec (.rndb .double 15 true) (ready 5) = .next t ∧ 1 ≤ min 15 8) ∧
      ∃ t, exec (.rndb .single 8 false) (ready 5) = .next t :=
  ⟨⟨_, rfl, by decide⟩, ⟨_, rfl, by decide⟩, ⟨_, rfl, by decide⟩, ⟨_, rfl⟩⟩
/-- The clamp law: the two ends of its range, both commands. -/
theorem witness_clamp :
    (∃ t t8, 9 ≤ 9 ∧ 9 ≤ 15 ∧ exec (.rndh .double 9 true) (ready 5) = .next t ∧
        exec (.rndh .double 8 true) (ready 5) = .next t8) ∧
      ∃ t t8, 9 ≤ 15 ∧ 15 ≤ 15 ∧ exec (.rndb .double 15 true) (ready 5) = .next t ∧
        exec (.rndb .double 8 true) (ready 5) = .next t8 :=
  ⟨⟨_, _, by decide, by decide, rfl, rfl⟩, ⟨_, _, by decide, by decide, rfl, rfl⟩⟩
/-- A separator place and a digit place of a text. -/
theorem witness_separatorPlaces :
    (blockAfter (exec (.rndh .double 8 true) (ready 5))).map (fun b => b.textLen.toNat) = some 23 ∧
      (2 + 1) % (2 + 1) = 0 ∧ 2 < 23 ∧ (22 + 1) % (2 + 1) ≠ 0 ∧ 22 < 23 := by decide
theorem witness_fullRender :
    ∃ s s' t t' : State, exec (.rndh .double 8 true) s = .next t ∧ exec (.rndh .double 8 true) s' = .next t' ∧
      t.block.text = t'.block.text := ⟨ready 5, ready 5, _, _, rfl, rfl, rfl⟩
theorem witness_fullRenderBinary :
    ∃ s s' t t' : State, exec (.rndb .double 15 false) s = .next t ∧ exec (.rndb .double 15 false) s' = .next t' ∧
      t.block.text = t'.block.text := ⟨ready 5, ready 5, _, _, rfl, rfl, rfl⟩
/-- A step of each kind the write matrix speaks of. -/
theorem witness_writeMatrix :
    (∃ t, step (host 5 [.write 0 7]) = .next t) ∧ (∃ t, step (host 5 [.reset]) = .next t) ∧
      (∃ t, step (host 5 [.write 6 7]) = .next t) ∧ (∃ t, step (host 5 [.read 0]) = .next t) ∧
      ∃ t, step (host 5 [.readText 127]) = .next t := ⟨⟨_, rfl⟩, ⟨_, rfl⟩, ⟨_, rfl⟩, ⟨_, rfl⟩, ⟨_, rfl⟩⟩
/-- Two states that differ in what they hold beside PATTERN. -/
theorem witness_samePattern :
    ∃ t t' u u', (ready 5).block.pattern = (host 5 [.reset]).block.pattern ∧
      exec .exts (ready 5) = .next t ∧ exec .exts (host 5 [.reset]) = .next t' ∧
      exec (.rndh .single 4 true) (ready 5) = .next u ∧ exec (.rndh .single 4 true) (host 5 [.reset]) = .next u' :=
  ⟨_, _, _, _, rfl, rfl, rfl, rfl, rfl⟩
theorem witness_commute :
    ∃ t u, exec .extd (ready 5) = .next t ∧ exec (.rndb .single 4 true) t = .next u := ⟨_, _, rfl, rfl⟩
theorem witness_upperHalf :
    ∃ t, (0xFFFFFFFF00000005 : Word).setWidth 32 = (ready 5).block.pattern.setWidth 32 ∧
      exec (.rndb .single 4 true) (ready 5) = .next t := ⟨_, by decide, rfl⟩
theorem witness_resetAccess :
    ∃ t u, (host 5 [.reset, .reset, .read 1]).pending = .reset :: .reset :: [.read 1] ∧
      step (host 5 [.reset, .reset, .read 1]) = .next t ∧ step t = .next u := ⟨_, _, rfl, rfl, rfl⟩
theorem witness_resetReads : (0 : BitVec 3) ≠ 1 ∧ (6 : BitVec 3) ≠ 7 ∧ (71 : BitVec 7).toNat < 72 := by decide
/-- A step that is no reset, with every valid bit set before it. -/
theorem witness_validBits :
    ∃ s t : State, s.block.pv = true ∧ s.block.fv = true ∧ s.block.tv = true ∧
      (∀ rest, s.pending ≠ .reset :: rest) ∧ step s = .next t :=
  ⟨{ host 5 [.read 1] with block := { (ready 5).block with fv := true, tv := true } }, _, rfl, rfl, rfl,
    fun _ => by simp [host], rfl⟩
theorem witness_invariantStep : ∃ t : State, BlockInvariant State.reset.block ∧ step State.reset = .next t := by
  refine ⟨_, ⟨fun h => ?_, fun h => ?_, fun _ => ⟨rfl, rfl⟩, fun h => ?_, fun h => ?_⟩, rfl⟩ <;>
    exact absurd h (by decide)
/-- A list with accesses left that keeps the contract, with every valid bit clear. -/
theorem witness_protocolStep :
    { State.reset with pending := [.reset, .write 0 0, .write 7 0, .read 2] : State }.pending ≠ [] ∧
      obeysProtocol State.reset.block.pv State.reset.block.fv State.reset.block.tv
        [.reset, .write 0 0, .write 7 0, .read 2] = true := by decide
/-- P1 and V-H4 of 95_test_vectors.md as lists: one keeps the contract, one breaks it. -/
theorem witness_protocol :
    obeysProtocol false false false [.reset, .read 1, .write 0 0x3F800000, .write 7 0, .read 2, .read 3] = true ∧
      obeysProtocol false false false [.write 0 0, .read 2] = false := by decide

end Sys2Proof.Tests
end

section
/-! The field layouts (00_scope.md R9). -/

namespace Sys2Proof.Machine

/-- R9: sign, exponent and mantissa cover the pattern with no bit left over. -/
theorem layout_fieldBits_sum (p : Precision) :
    (layout p).signBits + (layout p).exponentBits + (layout p).mantissaBits = (layout p).width := by
  cases p with
  | single => rfl
  | double => rfl

/-- Settles O1: both rows are the values `layout` gives, and their widths sum by `layout_fieldBits_sum`. -/
theorem layoutsAreTheTable : Obligations.LayoutsAreTheTable :=
  ⟨rfl, rfl, layout_fieldBits_sum⟩

end Sys2Proof.Machine
end

section
/-! What each kind of access does to the block: the write matrix (10_state.md R37). -/

namespace Sys2Proof.Machine

variable {i : Instr} {s t : State} {rest : List HostAccess}

/-! ### Commands as changes of the block -/

@[simp] theorem commandEffect_pv (i : Instr) (b : Block) : (commandEffect i b).pv = b.pv := by
  cases i <;> rfl

theorem commandEffect_fv_of_fv (i : Instr) {b : Block} (h : b.fv = true) : (commandEffect i b).fv = true := by
  cases i with
  | exts => rfl
  | extd => rfl
  | rndh => exact h
  | rndb => exact h

theorem commandEffect_tv_of_tv (i : Instr) {b : Block} (h : b.tv = true) : (commandEffect i b).tv = true := by
  cases i with
  | exts => exact h
  | extd => exact h
  | rndh => rfl
  | rndb => rfl

/-- An extract leaves PATTERN, PV and the text component as they were (10_state.md R37). -/
theorem commandEffect_extract_frame (b : Block) (h : i = .exts ∨ i = .extd) :
    commandEffect i b = { b with
      sign := (commandEffect i b).sign, expRaw := (commandEffect i b).expRaw
      expUnb := (commandEffect i b).expUnb, mant := (commandEffect i b).mant
      fv := (commandEffect i b).fv, fprec := (commandEffect i b).fprec, mlen := (commandEffect i b).mlen } := by
  rcases h with rfl | rfl <;> rfl

/-- A render leaves PATTERN, PV and the extract results as they were (10_state.md R37). -/
theorem commandEffect_render_frame (b : Block) {p : Precision} {len : Nat} {g : Bool}
    (h : i = .rndh p len g ∨ i = .rndb p len g) :
    commandEffect i b = { b with
      text := (commandEffect i b).text, textLen := (commandEffect i b).textLen, tv := (commandEffect i b).tv } := by
  rcases h with rfl | rfl <;> rfl

/-- A command with PREC = 0 does the same to a block with another upper half of PATTERN (10_state.md R23). -/
theorem commandEffect_single_of_low_eq (b : Block) {len : Nat} {g : Bool} {v : Word}
    (hi : i = .exts ∨ i = .rndh .single len g ∨ i = .rndb .single len g)
    (hv : v.setWidth 32 = b.pattern.setWidth 32) :
    commandEffect i { b with pattern := v } = { commandEffect i b with pattern := v } := by
  rcases hi with rfl | rfl | rfl
  · simp only [commandEffect, singleFields_congr hv]; rfl
  · simp only [commandEffect, renderSource_single_congr hv]; rfl
  · simp only [commandEffect, renderSource_single_congr hv]; rfl

/-! ### Host accesses other than commands -/

theorem step_patternWrite {v : Word} (h : s.pending = .write 0 v :: rest) :
    step s = .next { s with pending := rest, block := s.block.writePattern v } :=
  step_cons h

theorem step_reset (h : s.pending = .reset :: rest) :
    step s = .next { s with pending := rest, block := Block.reset } :=
  step_cons h

/-- Only a PATTERN write, a CMD write and a reset change the block (10_state.md R37). -/
theorem step_block_eq {a : HostAccess} (hp : s.pending = a :: rest) (hpat : ∀ v, a ≠ .write 0 v)
    (hcmd : ∀ v, a ≠ .write 7 v) (hres : a ≠ .reset) (h : step s = .next t) : t.block = s.block := by
  rcases step_next_cases h with ⟨_, rfl⟩ | ⟨a', rest', hp', hcase⟩
  · rfl
  · obtain ⟨rfl, rfl⟩ : a = a' ∧ rest = rest' := by simpa [hp] using hp'
    rcases hcase with ⟨v, ha, _⟩ | ⟨v, ha, _⟩ | ⟨_, _, _, _, _, rfl⟩ | ⟨_, _, _, _, rfl⟩ | ⟨_, _, _, _, rfl⟩ | ⟨ha, _⟩
    · exact absurd ha (hpat v)
    · exact absurd ha (hcmd v)
    · rfl
    · rfl
    · rfl
    · exact absurd ha hres

/-- A step changes the block by a PATTERN write, by a command once PATTERN is there, by a reset, or not at all: what
an argument about the block alone needs of `step_next_cases`. -/
theorem step_block_cases (h : step s = .next t) :
    t.block = s.block ∨ (∃ v, t.block = s.block.writePattern v) ∨
      (∃ i, s.block.pv = true ∧ t.block = commandEffect i s.block) ∨
      ((∃ rest, s.pending = .reset :: rest) ∧ t.block = Block.reset) := by
  rcases step_next_cases h with ⟨_, rfl⟩ | ⟨a, rest, hp, hcase⟩
  · exact .inl rfl
  · rcases hcase with ⟨v, _, rfl⟩ | ⟨v, _, hpv, rfl⟩ | ⟨_, _, _, _, _, rfl⟩ | ⟨_, _, _, _, rfl⟩ | ⟨_, _, _, _, rfl⟩ |
      ⟨rfl, rfl⟩
    · exact .inr (.inl ⟨v, rfl⟩)
    · exact .inr (.inr (.inl ⟨_, hpv, rfl⟩))
    · exact .inl rfl
    · exact .inl rfl
    · exact .inl rfl
    · exact .inr (.inr (.inr ⟨⟨rest, hp⟩, rfl⟩))

end Sys2Proof.Machine
end

section
/-! The characters of a rendered string are those of 41_render.md R107. -/

namespace Sys2Proof.Machine

variable {unit : Byte → List Char}

theorem isDigitCode_hexDigit (d : BitVec 4) : isDigitCode (charCode (hexDigit d)) := by
  have hd := d.isLt
  unfold isDigitCode
  rw [hexDigit_code]
  split <;> omega

theorem isDigitCode_bitDigit (b : Bool) : isDigitCode (charCode (bitDigit b)) := by
  cases b <;> decide

theorem isTextCode_separator (q : Nat) : isTextCode (charCode (separator q)) := by
  rw [separator_code]
  split
  · exact .inr (.inl rfl)
  · split
    · exact .inr (.inr (.inr rfl))
    · exact .inr (.inr (.inl rfl))

theorem isDigitCode_of_mem_hexUnit {b : Byte} {c : Char} (h : c ∈ hexUnit b) : isDigitCode (charCode c) := by
  simp only [hexUnit, List.mem_cons, List.not_mem_nil, or_false] at h
  rcases h with rfl | rfl <;> exact isDigitCode_hexDigit _

theorem isDigitCode_of_mem_binUnit {b : Byte} {c : Char} (h : c ∈ binUnit b) : isDigitCode (charCode c) := by
  obtain ⟨d, rfl⟩ : ∃ d, c = bitDigit d := by
    simp only [binUnit, List.mem_cons, List.not_mem_nil, or_false] at h
    rcases h with h | h | h | h | h | h | h | h <;> exact ⟨_, h⟩
  exact isDigitCode_bitDigit d

/-- A string rendered from units of digits holds nothing but digits and separators. -/
theorem isTextCode_of_mem_renderString (hu : ∀ b, ∀ c ∈ unit b, isDigitCode (charCode c)) (sep : Bool) (src : Word)
    (n : Nat) : ∀ c ∈ renderString unit sep src n, isTextCode (charCode c) := by
  induction n with
  | zero => simp [renderString]
  | succ p ih =>
    intro c hc
    rw [renderString, List.mem_append, List.mem_append] at hc
    rcases hc with (hunit | hsep) | hrest
    · exact .inl (hu _ c hunit)
    · obtain ⟨_, rfl⟩ : (sep = true ∧ p ≠ 0) ∧ c = separator p := by simpa [separatorAfter] using hsep
      exact isTextCode_separator p
    · exact ih c hrest

end Sys2Proof.Machine
end

section
/-! The invariant of the block (10_state.md R24 to R32), kept by each kind of access. -/

namespace Sys2Proof.Machine

variable {b : Block}

theorem blockInvariant_reset : BlockInvariant Block.reset where
  fields_after_pattern := nofun
  text_after_pattern := nofun
  no_extract _ := ⟨rfl, rfl⟩
  fields := nofun
  text := nofun

theorem blockInvariant_writePattern (v : Word) (h : BlockInvariant b) : BlockInvariant (b.writePattern v) where
  fields_after_pattern _ := rfl
  text_after_pattern _ := rfl
  no_extract := h.no_extract
  fields := h.fields
  text := h.text

theorem blockInvariant_writeFields {p : Precision} {f : Fields} (h : BlockInvariant b) (hpv : b.pv = true)
    (hf : fieldsLegal (b.writeFields p f)) : BlockInvariant (b.writeFields p f) where
  fields_after_pattern _ := hpv
  text_after_pattern _ := hpv
  no_extract := nofun
  fields _ := hf
  text := h.text

theorem blockInvariant_writeText {str : List Char} (h : BlockInvariant b) (hpv : b.pv = true)
    (ht : textLegal (b.writeText str)) : BlockInvariant (b.writeText str) where
  fields_after_pattern _ := hpv
  text_after_pattern _ := hpv
  no_extract := h.no_extract
  fields := h.fields
  text _ := ht

/-- EXTS leaves legal Single fields (40_extract.md R82 to R84). -/
theorem fieldsLegal_writeFields_single (v : Word) (b : Block) :
    fieldsLegal (b.writeFields .single (singleFields v)) := by
  simp only [fieldsLegal, Block.writeFields_sign, Block.writeFields_fprec, Block.writeFields_mlen,
    Block.writeFields_expRaw, Block.writeFields_expUnb, Block.writeFields_mant, singleFields_sign_toNat,
    singleFields_expRaw_toNat, singleFields_expUnb_toInt, singleFields_mant_toNat]
  exact ⟨by omega, rfl, by omega, trivial, by omega, by omega⟩

/-- EXTD leaves legal Double fields (40_extract.md R87 to R89). -/
theorem fieldsLegal_writeFields_double (v : Word) (b : Block) :
    fieldsLegal (b.writeFields .double (doubleFields v)) := by
  have hv := v.isLt
  simp only [fieldsLegal, Block.writeFields_sign, Block.writeFields_fprec, Block.writeFields_mlen,
    Block.writeFields_expRaw, Block.writeFields_expUnb, Block.writeFields_mant, doubleFields_sign_toNat,
    doubleFields_expRaw_toNat, doubleFields_expUnb_toInt, doubleFields_mant_toNat]
  exact ⟨by omega, rfl, by omega, trivial, by omega, by omega⟩

/-- A string of legal characters that fits the buffer is a legal text there (41_render.md R104). -/
theorem textLegal_writeText {str : List Char} (hlen : str.length ≤ 71) (hstr : ∀ c ∈ str, isTextCode (charCode c))
    (b : Block) : textLegal (b.writeText str) := by
  refine ⟨(writeText_textLen_toNat hlen).trans_le hlen, fun k hk => ?_⟩
  rw [writeText_textLen_toNat hlen]
  split
  · next hlt =>
    rw [textAt_writeText_getElem? hk, List.getElem?_eq_getElem hlt]
    exact hstr _ (List.getElem_mem hlt)
  · next hge => exact textAt_writeText_fill (Nat.le_of_not_lt hge) hk

/-- Every render leaves a legal text: its units are digits, at most eight to a byte (41_render.md R106, R110). -/
theorem textLegal_renderString {unit : Byte → List Char} {u : Nat} (hlen : ∀ b, (unit b).length = u) (hu8 : u ≤ 8)
    (hdigit : ∀ b, ∀ c ∈ unit b, isDigitCode (charCode c)) (sep : Bool) (src : Word) (len : Nat) (b : Block) :
    textLegal (b.writeText (renderString unit sep src (clampLen len))) :=
  textLegal_writeText (length_renderString_le hlen hu8 sep src len)
    (isTextCode_of_mem_renderString hdigit sep src (clampLen len)) b

/-- A command that completes (so PV = 1, 30_encoding.md R68) keeps the invariant. -/
theorem blockInvariant_commandEffect (i : Instr) (h : BlockInvariant b) (hpv : b.pv = true) :
    BlockInvariant (commandEffect i b) := by
  cases i with
  | exts => exact blockInvariant_writeFields h hpv (fieldsLegal_writeFields_single _ b)
  | extd => exact blockInvariant_writeFields h hpv (fieldsLegal_writeFields_double _ b)
  | rndh p len g =>
    exact blockInvariant_writeText h hpv
      (textLegal_renderString length_hexUnit (by decide) (fun _ _ => isDigitCode_of_mem_hexUnit) g _ len b)
  | rndb p len g =>
    exact blockInvariant_writeText h hpv
      (textLegal_renderString length_binUnit le_rfl (fun _ _ => isDigitCode_of_mem_binUnit) g _ len b)

end Sys2Proof.Machine
end

section
/-! The obligations about the state (10_state.md). -/

namespace Sys2Proof.Machine

/-- Settles O47: each way a step can change the block keeps the invariant. -/
theorem stepKeepsInvariant : Obligations.StepKeepsInvariant := by
  intro s t hinv hstep
  rcases step_block_cases hstep with hb | ⟨v, hb⟩ | ⟨i, hpv, hb⟩ | ⟨_, hb⟩ <;> rw [hb]
  · exact hinv
  · exact blockInvariant_writePattern v hinv
  · exact blockInvariant_commandEffect i hinv hpv
  · exact blockInvariant_reset

/-- Settles O33: a PATTERN write and a reset by their step, the commands by their effect, the rest by
`step_block_eq`. -/
theorem writeMatrix : Obligations.WriteMatrix := by
  refine ⟨fun s t v rest hp h => ?_, fun s t i hi h => ?_, fun s t p len g i hi h => ?_, fun s t rest hp h => ?_,
    fun s t a rest => step_block_eq⟩
  · cases (step_patternWrite hp).symm.trans h
    rfl
  · obtain ⟨_, rfl⟩ := exec_next_iff.mp h
    exact congrArg (fun b => { s with block := b }) (commandEffect_extract_frame s.block hi)
  · obtain ⟨_, rfl⟩ := exec_next_iff.mp h
    exact congrArg (fun b => { s with block := b }) (commandEffect_render_frame s.block hi)
  · cases (step_reset hp).symm.trans h
    rfl

/-- Settles O39: the effect of a Single command does not see the upper half of PATTERN, and PV decides whether it
completes. -/
theorem singleCommandsIgnoreUpperHalf : Obligations.SingleCommandsIgnoreUpperHalf := by
  intro s t i len g v hi hv h
  obtain ⟨hpv, rfl⟩ := exec_next_iff.mp h
  exact exec_next_iff.mpr
    ⟨hpv, congrArg (fun b => { s with block := b }) (commandEffect_single_of_low_eq s.block hi hv).symm⟩

/-- Settles O45: no change of the block but a reset clears a valid bit. -/
theorem onlyResetClearsValidBits : Obligations.OnlyResetClearsValidBits := by
  intro s t hstep hnoReset
  rcases step_block_cases hstep with hb | ⟨v, hb⟩ | ⟨i, _, hb⟩ | ⟨⟨rest, hp⟩, _⟩
  · rw [hb]
    exact ⟨id, id, id⟩
  · rw [hb]
    exact ⟨fun _ => rfl, id, id⟩
  · rw [hb]
    exact ⟨(commandEffect_pv i _).trans, commandEffect_fv_of_fv i, commandEffect_tv_of_tv i⟩
  · exact absurd hp (hnoReset rest)

/-- Settles O46: every valid bit is 0 in reset, and FPREC and MLEN are 0 (10_state.md R36). -/
theorem resetMeetsInvariant : Obligations.ResetMeetsInvariant :=
  blockInvariant_reset

/-- Settles O49: loading sets the host's list only, and the valid bits at power-on are those the protocol starts
from. -/
theorem loadedProgramMeetsProtocol : Obligations.LoadedProgramMeetsProtocol :=
  fun _ h => ⟨rfl, h⟩

end Sys2Proof.Machine
end

section
/-! What each host access answers (20_memory.md R43 to R45, R57): one equation per kind of access and outcome. -/

namespace Sys2Proof.Machine

variable {i : BitVec 3} {k : BitVec 7} {v : Word} {s : State} {b : Block} {rest : List HostAccess}

/-! ### The REG map -/

theorem exists_regIndex_eq (i : BitVec 3) : ∃ r, regIndex r = i := ⟨regAt i, regIndex_regAt i⟩

/-! ### Writes -/

/-- A CMD write is the command of its low byte, and a model fault of it is the write's (20_memory.md R44). -/
theorem step_write_cmd (h : s.pending = .write 7 v :: rest) :
    step s = recordAccess (.write 7 v) (exec (decode (commandWord v)) { s with pending := rest }) :=
  step_cons h

/-- The indices 1 to 6 are read-only (20_memory.md R44). -/
theorem step_write_readOnly (h : s.pending = .write i v :: rest) (h0 : i ≠ 0) (h7 : i ≠ 7) :
    step s = .next { s with pending := rest } := by
  rw [step_cons h]
  obtain ⟨r, rfl⟩ := exists_regIndex_eq i
  cases r with
  | pattern => exact absurd rfl h0
  | cmd => exact absurd rfl h7
  | status | sign | expRaw | expUnb | mant | textLen => rfl

/-! ### Reads -/

theorem readReg_of_not_hasValue {r : Reg} (h : hasValue b r = false) : ∃ f, readReg b r = .error f := by
  cases hr : readReg b r with
  | ok v => exact absurd ((readReg_ok_iff b r).mp ⟨v, hr⟩) (by simp [h])
  | error f => exact ⟨f, rfl⟩

theorem step_read_of_ok (h : s.pending = .read i :: rest) (hr : readReg s.block (regAt i) = .ok v) :
    step s = .next { s with pending := rest, observed := s.observed ++ [.reg v] } := by
  rw [step_cons h]
  simp only [hostAccess, hostRead, hr]
  rfl

theorem step_read_of_error {f : Fault} (h : s.pending = .read i :: rest)
    (hr : readReg s.block (regAt i) = .error f) : step s = .fault f := by
  rw [step_cons h]
  simp only [hostAccess, hostRead, hr]
  rfl

theorem step_readText_of_ok {c : Byte} (h : s.pending = .readText k :: rest) (hr : readText s.block k = .ok c) :
    step s = .next { s with pending := rest, observed := s.observed ++ [.text c] } := by
  rw [step_cons h]
  simp only [hostAccess, hostReadText, hr]
  rfl

theorem step_readText_of_error {f : Fault} (h : s.pending = .readText k :: rest)
    (hr : readText s.block k = .error f) : step s = .fault f := by
  rw [step_cons h]
  simp only [hostAccess, hostReadText, hr]
  rfl

/-- STATUS as the number its fields make up (10_state.md R24). -/
theorem status_eq_ofNat (b : Block) :
    b.status = BitVec.ofNat 64 (b.pv.toNat + 2 * b.fv.toNat + 4 * b.tv.toNat +
      8 * (if b.fprec = .double then 1 else 0) + 16 * b.mlen.toNat) := by
  unfold Block.status
  generalize b.pv = pv, b.fv = fv, b.tv = tv, b.fprec = fprec, b.mlen = mlen
  revert pv fv tv mlen
  cases fprec <;> decide

theorem textAt_eq_getElem {k : Nat} (h : k < 72) : b.textAt k = b.text[k] := by
  simp [Block.textAt, Vector.getD, h]

/-- Past the text a legal block holds the fill byte (41_render.md R104). -/
theorem textAt_eq_zero_of_invariant (hinv : BlockInvariant b) (htv : b.tv = true) {k : Nat}
    (hlen : b.textLen.toNat ≤ k) (hk : k < 72) : b.textAt k = 0 := by
  obtain ⟨_, htext⟩ := hinv.text htv
  simpa [Nat.not_lt.mpr hlen] using htext k hk

/-! ### Commands -/

theorem commandEffect_idem (i : Instr) (b : Block) :
    commandEffect i (commandEffect i b) = commandEffect i b := by
  cases i <;> rfl

/-- The OP bit of a CMD write is bit 0 of the value (30_encoding.md R62). -/
theorem cmdOp_commandWord (v : Word) : cmdOp (commandWord v) = v.getLsbD 0 := by
  simp [cmdOp, commandWord]

/-- A command word with OP = 1 is a render: it sets TV and keeps FV (30_encoding.md R62, 10_state.md R37). -/
theorem commandEffect_decode_render {w : Byte} (h : cmdOp w = true) (b : Block) :
    (commandEffect (decode w) b).fv = b.fv ∧ (commandEffect (decode w) b).tv = true := by
  rw [decode, if_pos h]
  split <;> exact ⟨rfl, rfl⟩

/-- A command word with OP = 0 is an extract: it sets FV and keeps TV (30_encoding.md R62, 10_state.md R37). -/
theorem commandEffect_decode_extract {w : Byte} (h : cmdOp w = false) (b : Block) :
    (commandEffect (decode w) b).fv = true ∧ (commandEffect (decode w) b).tv = b.tv := by
  rw [decode, if_neg (by simp [h])]
  split <;> exact ⟨rfl, rfl⟩

end Sys2Proof.Machine
end

section
/-! The host's side of the contract along a run (20_memory.md R57, R58; 70_reset_and_hazards.md R143, R144). One lemma
says what the next access can come to; a run is that lemma repeated. -/

namespace Sys2Proof.Machine

variable {i : BitVec 3} {v : Word} {s t u : State} {rest : List HostAccess}

/-- The accesses left keep the contract, given what the block holds. -/
def State.keepsContract (s : State) : Bool :=
  obeysProtocol s.block.pv s.block.fv s.block.tv s.pending

theorem keepsContract_of_nil (h : s.pending = []) : s.keepsContract = true := by
  simp [State.keepsContract, h, obeysProtocol]

/-- The contract asks of a REG read that the location holds a value. -/
theorem keepsContract_of_read (h : s.pending = .read i :: rest) :
    s.keepsContract = (hasValue s.block (regAt i) && { s with pending := rest }.keepsContract) := by
  obtain ⟨r, rfl⟩ := exists_regIndex_eq i
  rw [State.keepsContract, h, regAt_regIndex, obeysProtocol, State.keepsContract]
  cases r <;> rfl

/-- What the accesses made on the way from s to t leave behind: one observation for each read among them, and a
contract that is kept afterwards exactly when it was before. -/
structure Progress (s t : State) : Prop where
  observed : ∃ values : List HostValue,
    t.observed = s.observed ++ values ∧ countReads s.pending = values.length + countReads t.pending
  contract : t.keepsContract = s.keepsContract

theorem Progress.refl (s : State) : Progress s s := ⟨⟨[], by simp⟩, rfl⟩

theorem Progress.trans (h : Progress s t) (h' : Progress t u) : Progress s u := by
  obtain ⟨⟨xs, hxs, hcount⟩, hkeep⟩ := h
  obtain ⟨⟨ys, hys, hcount'⟩, hkeep'⟩ := h'
  refine ⟨⟨xs ++ ys, by rw [hys, hxs, List.append_assoc], ?_⟩, hkeep'.trans hkeep⟩
  rw [List.length_append, hcount, hcount', Nat.add_assoc]

/-- An access that returns no value, and after which the valid bits are what the contract takes them to be. -/
theorem Progress.of_silent (hobs : t.observed = s.observed) (hcount : countReads s.pending = countReads t.pending)
    (hkeep : t.keepsContract = s.keepsContract) : Progress s t :=
  ⟨⟨[], by rw [hobs, List.append_nil], by rw [hcount, List.length_nil, Nat.zero_add]⟩, hkeep⟩

/-- A read leaves the block and takes one value. -/
theorem Progress.of_read {x : HostValue} (hcount : countReads s.pending = countReads rest + 1)
    (hkeep : s.keepsContract = { s with pending := rest }.keepsContract) :
    Progress s { s with pending := rest, observed := s.observed ++ [x] } :=
  ⟨⟨[x], rfl, by rw [hcount, List.length_singleton, Nat.add_comm]⟩, hkeep.symm⟩

/-- A completed command sets the valid bit that the contract takes it to set. -/
theorem keepsContract_of_command (h : s.pending = .write 7 v :: rest) (hpv : s.block.pv = true) :
    { s with pending := rest, block := commandEffect (decode (commandWord v)) s.block }.keepsContract =
      s.keepsContract := by
  simp only [State.keepsContract, h, obeysProtocol, commandEffect_pv, hpv]
  rw [← cmdOp_commandWord]
  cases hop : cmdOp (commandWord v) with
  | false =>
    obtain ⟨hfv, htv⟩ := commandEffect_decode_extract hop s.block
    simp [hfv, htv]
  | true =>
    obtain ⟨hfv, htv⟩ := commandEffect_decode_render hop s.block
    simp [hfv, htv]

/-- What the next access comes to: it is a model fault, and the contract is broken, or it completes. -/
def StepFaultsOrProgresses (s : State) : Prop :=
  (s.keepsContract = false ∧ ∃ f, step s = .fault f) ∨
    ∃ t, step s = .next t ∧ t.pending = s.pending.tail ∧ Progress s t

theorem stepFaultsOrProgresses_of_write (h : s.pending = .write i v :: rest) : StepFaultsOrProgresses s := by
  by_cases h0 : i = 0
  · subst h0
    exact .inr ⟨_, step_patternWrite h, by rw [h]; rfl,
      .of_silent rfl (by rw [h]; rfl) (by rw [State.keepsContract, State.keepsContract, h]; rfl)⟩
  by_cases h7 : i = 7
  · subst h7
    have hstep := step_cmdWrite h
    cases hpv : s.block.pv with
    | false =>
      rw [hpv, if_neg Bool.false_ne_true] at hstep
      exact .inl ⟨by simp [State.keepsContract, h, obeysProtocol, hpv], _, hstep⟩
    | true =>
      rw [hpv, if_pos rfl] at hstep
      exact .inr ⟨_, hstep, by rw [h]; rfl,
        .of_silent rfl (by rw [h]; rfl) (keepsContract_of_command h hpv)⟩
  · exact .inr ⟨_, step_write_readOnly h h0 h7, by rw [h]; rfl,
      .of_silent rfl (by rw [h]; rfl) (by simp only [State.keepsContract, h, obeysProtocol, if_neg h0, if_neg h7])⟩

theorem stepFaultsOrProgresses_of_read (h : s.pending = .read i :: rest) : StepFaultsOrProgresses s := by
  have hkeep := keepsContract_of_read h
  cases hval : hasValue s.block (regAt i) with
  | false =>
    obtain ⟨f, hf⟩ := readReg_of_not_hasValue hval
    exact .inl ⟨by rw [hkeep, hval, Bool.false_and], f, step_read_of_error h hf⟩
  | true =>
    obtain ⟨v, hv⟩ := (readReg_ok_iff s.block (regAt i)).mpr hval
    exact .inr ⟨_, step_read_of_ok h hv, by rw [h]; rfl,
      .of_read (by rw [h]; rfl) (by rw [hkeep, hval, Bool.true_and])⟩

theorem stepFaultsOrProgresses_of_readText {k : BitVec 7} (h : s.pending = .readText k :: rest) :
    StepFaultsOrProgresses s := by
  have hcount : countReads s.pending = countReads rest + 1 := by rw [h]; rfl
  have htail : rest = s.pending.tail := by rw [h]; rfl
  rcases Nat.lt_or_ge k.toNat 72 with hk | hk
  · cases htv : s.block.tv with
    | false =>
      exact .inl ⟨by simp [State.keepsContract, h, obeysProtocol, htv, hk], _,
        step_readText_of_error h (readText_unwritten _ k hk htv)⟩
    | true =>
      exact .inr ⟨_, step_readText_of_ok h (readText_backed _ k hk htv), htail,
        .of_read hcount (by simp [State.keepsContract, h, obeysProtocol, htv])⟩
  · exact .inr ⟨_, step_readText_of_ok h (readText_unbacked _ k hk), htail,
      .of_read hcount (by simp [State.keepsContract, h, obeysProtocol, hk])⟩

theorem stepFaultsOrProgresses_of_reset (h : s.pending = .reset :: rest) : StepFaultsOrProgresses s :=
  .inr ⟨_, step_reset h, by rw [h]; rfl,
    .of_silent rfl (by rw [h]; rfl) (by rw [State.keepsContract, State.keepsContract, h]; rfl)⟩

/-- Every access left is a model fault that the contract rules out, or completes and leaves the contract as it was. -/
theorem stepFaultsOrProgresses (h : s.pending ≠ []) : StepFaultsOrProgresses s := by
  obtain ⟨a, rest, hp⟩ := List.exists_cons_of_ne_nil h
  cases a with
  | write i v => exact stepFaultsOrProgresses_of_write hp
  | read i => exact stepFaultsOrProgresses_of_read hp
  | readText k => exact stepFaultsOrProgresses_of_readText hp
  | reset => exact stepFaultsOrProgresses_of_reset hp

/-! ### Runs -/

theorem run_succ_of_next {n : Nat} (h : step s = .next t) :
    Sys2Proof.core.run (n + 1) s = Sys2Proof.core.run n t := by
  simp only [Host.Core.run, core, h]

theorem run_succ_of_fault {n : Nat} {f : Fault} (h : step s = .fault f) :
    Sys2Proof.core.run (n + 1) s = .fault f := by
  simp only [Host.Core.run, core, h]

/-- The run of the whole list ends at a model fault, and the contract is broken, or exhausts the list. -/
theorem run_pending_faults_or_progresses (s : State) :
    (s.keepsContract = false ∧ ∃ f, Sys2Proof.core.run s.pending.length s = .fault f) ∨
      ∃ t, Sys2Proof.core.run s.pending.length s = .next t ∧ t.pending = [] ∧ Progress s t := by
  induction hp : s.pending generalizing s with
  | nil => exact .inr ⟨s, rfl, hp, .refl s⟩
  | cons a rest ih =>
    rw [List.length_cons]
    rcases stepFaultsOrProgresses (by simp [hp] : s.pending ≠ []) with ⟨hbroken, f, hf⟩ | ⟨t, ht, htail, hst⟩
    · exact .inl ⟨hbroken, f, run_succ_of_fault hf⟩
    · rw [run_succ_of_next ht]
      rcases ih t (by rw [htail, hp, List.tail_cons]) with ⟨hbroken, hfault⟩ | ⟨u, hu, hnil, htu⟩
      · exact .inl ⟨hst.contract.symm.trans hbroken, hfault⟩
      · exact .inr ⟨u, hu, hnil, hst.trans htu⟩

end Sys2Proof.Machine
end

section
/-! The obligations about the host port (20_memory.md). -/

namespace Sys2Proof.Machine

/-- Settles O48: the step is no fault, since a fault breaks the contract. -/
theorem protocolIsKept : Obligations.ProtocolIsKept := by
  intro s hpending hkeep
  rcases stepFaultsOrProgresses hpending with ⟨hbroken, _⟩ | ⟨t, ht, htail, hst⟩
  · exact absurd (hbroken.symm.trans hkeep) Bool.false_ne_true
  · exact ⟨t, ht, htail, hst.contract.trans hkeep⟩

/-- Settles O14: location by location, on whether its valid bit is set. -/
theorem hostReadReturns : Obligations.HostReadReturns := by
  intro s i rest h b got
  obtain ⟨r, rfl⟩ := exists_regIndex_eq i
  have hok {v : Word} (hr : readReg b r = .ok v) : step s = got v :=
    step_read_of_ok h (by rwa [regAt_regIndex])
  have herr {f : Fault} (hr : readReg b r = .error f) : step s = .fault f :=
    step_read_of_error h (by rwa [regAt_regIndex])
  cases r with
  | pattern =>
    cases hpv : b.pv with
    | false => rw [herr (if_neg (by simp [hpv]))]; simp [regIndex]
    | true => rw [hok (if_pos hpv)]; simp [regIndex]
  | status => rw [hok rfl, status_eq_ofNat]; rfl
  | sign | expRaw | expUnb | mant =>
    cases hfv : b.fv with
    | false => rw [herr (if_neg (by simp [hfv]))]; simp [regIndex, regAt]
    | true => rw [hok (if_pos hfv)]; simp [regIndex]
  | textLen =>
    cases htv : b.tv with
    | false => rw [herr (if_neg (by simp [htv]))]; simp [regIndex]
    | true => rw [hok (if_pos htv)]; simp [regIndex]
  | cmd => exact hok rfl

/-- Settles O15: without storage, unwritten, written, and past the text of a legal block. -/
theorem hostTextReadReturns : Obligations.HostTextReadReturns := by
  intro s k rest h got
  have hwritten (hk : k.toNat < 72) (htv : s.block.tv = true) : step s = got (s.block.textAt k.toNat) :=
    step_readText_of_ok h (readText_backed _ k hk htv)
  refine ⟨fun hk => ?_, fun hk htv => ?_, fun hk htv => ?_, fun hinv htv hlen hk => ?_⟩
  · exact step_readText_of_ok h (readText_unbacked _ k hk)
  · exact step_readText_of_error h (readText_unwritten _ k hk htv)
  · rw [hwritten hk htv, textAt_eq_getElem hk]
  · rw [hwritten hk htv, textAt_eq_zero_of_invariant hinv htv hlen hk]

/-- Settles O36: a completed command keeps PV, and its effect is idempotent. -/
theorem commandsAreIdempotent : Obligations.CommandsAreIdempotent := by
  intro i s t h
  obtain ⟨hpv, rfl⟩ := exec_next_iff.mp h
  exact exec_next_iff.mpr ⟨(commandEffect_pv i _).trans hpv, by rw [commandEffect_idem]⟩

/-- Settles O50: the run does not end at a fault, since a fault breaks the contract, and at its end no read is left to
count. -/
theorem protocolRunCompletes : Obligations.ProtocolRunCompletes := by
  intro s hkeep
  rcases run_pending_faults_or_progresses s with ⟨hbroken, _⟩ | ⟨t, ht, hnil, hst⟩
  · exact absurd (hbroken.symm.trans hkeep) Bool.false_ne_true
  · obtain ⟨values, hobs, hcount⟩ := hst.observed
    exact ⟨t, values, ht, hnil, hobs, by rw [hcount, hnil]; rfl⟩

/-- Settles O51: a run that exhausts the list kept the contract, since the empty list keeps it. -/
theorem protocolBreachFaults : Obligations.ProtocolBreachFaults := by
  intro s hbroken
  rcases run_pending_faults_or_progresses s with ⟨_, hfault⟩ | ⟨t, _, hnil, hst⟩
  · exact hfault
  · have hkeep : s.keepsContract = true := hst.contract.symm.trans (keepsContract_of_nil hnil)
    exact absurd (hbroken.symm.trans hkeep) Bool.false_ne_true

/-- Settles O13: index 0, index 7, and the read-only indices. -/
theorem hostWriteEffects : Obligations.HostWriteEffects := by
  intro s i v rest h
  split
  · next h0 => exact step_patternWrite (h0 ▸ h)
  · next h0 =>
    split
    · next h7 => exact step_write_cmd (h7 ▸ h)
    · next h7 => exact step_write_readOnly h h0 h7

end Sys2Proof.Machine
end

section
/-! The fields of a command word: what the encoder puts there and what the decoder reads (30_encoding.md R61, R67,
R68, R72). -/

namespace Sys2Proof.Machine

variable {mode w : Byte} {p : Precision} {len : Nat} {g : Bool}

theorem lenFits_iff {n : Nat} : lenFits n = true ↔ n < 16 := decide_eq_true_iff

/-! ### The word of a render command as a number -/

theorem precisionBit_toNat_lt (p : Precision) : p.bit.toNat < 2 := by cases p <;> decide

@[simp] theorem sepBit_toNat (g : Bool) : (sepBit g).toNat = g.toNat := by cases g <;> rfl

/-- R72's formula over numbers: with every field in its range the shifts lose no bit. -/
theorem encodeRender_toNat (hmode : mode.toNat < 2) (hlen : len < 16) :
    (encodeRender mode p len g).toNat =
      (len <<< 4 ||| g.toNat <<< 3 ||| mode.toNat <<< 2 ||| p.bit.toNat <<< 1 ||| 1) := by
  have hp := precisionBit_toNat_lt p
  have hg := g.toNat_lt
  simp only [encodeRender, BitVec.toNat_or, BitVec.toNat_shiftLeft, BitVec.toNat_ofNat, sepBit_toNat,
    Nat.shiftLeft_eq]
  simp (disch := omega) only [Nat.mod_eq_of_lt]

/-! ### The fields of the word of a render command -/

theorem cmdLen_eq_div (w : Byte) : cmdLen w = w.toNat / 16 := by
  have hw := w.isLt
  simp only [cmdLen, BitVec.extractLsb_toNat, Nat.shiftRight_eq_div_pow]
  omega

@[simp] theorem cmdOp_encodeRender (mode : Byte) (p : Precision) (len : Nat) (g : Bool) :
    cmdOp (encodeRender mode p len g) = true := by
  simp [cmdOp, encodeRender]

@[simp] theorem cmdPrec_encodeRender (mode : Byte) (p : Precision) (len : Nat) (g : Bool) :
    cmdPrec (encodeRender mode p len g) = p := by
  cases p <;> simp [cmdPrec, encodeRender, Precision.bit]

@[simp] theorem cmdMode_encodeRender (mode : Byte) (p : Precision) (len : Nat) (g : Bool) :
    cmdMode (encodeRender mode p len g) = mode.getLsbD 0 := by
  cases p <;> simp [cmdMode, encodeRender, Precision.bit]

/-- The place of SEP is the second bit of MODE's byte, which MODE leaves 0. -/
theorem cmdSep_encodeRender (hmode : mode.toNat < 2) : cmdSep (encodeRender mode p len g) = g := by
  have hbit : mode[1] = false := Nat.testBit_lt_two_pow (i := 1) (x := mode.toNat) (by omega)
  cases p <;> cases g <;> simp [cmdSep, encodeRender, Precision.bit, sepBit, hbit]

/-- LEN stands above bit 3, where no other field reaches. -/
theorem cmdLen_encodeRender (hmode : mode.toNat < 2) (hlen : len < 16) :
    cmdLen (encodeRender mode p len g) = len := by
  have hp := precisionBit_toNat_lt p
  have hg := g.toNat_lt
  have hlow : (g.toNat <<< 3) >>> 4 = 0 ∧ (mode.toNat <<< 2) >>> 4 = 0 ∧ (p.bit.toNat <<< 1) >>> 4 = 0 := by
    simp only [Nat.shiftLeft_eq, Nat.shiftRight_eq_div_pow]
    omega
  obtain ⟨hsep, hmd, hprec⟩ := hlow
  rw [cmdLen_eq_div, encodeRender_toNat hmode hlen, ← Nat.shiftRight_eq_div_pow _ 4]
  simp [Nat.shiftRight_or_distrib, hsep, hmd, hprec, Nat.shiftLeft_shiftRight]

/-- The decoder reads every field of a render word back (30_encoding.md R68). -/
theorem decode_encodeRender (hmode : mode.toNat < 2) (hlen : len < 16) :
    decode (encodeRender mode p len g) = if mode.getLsbD 0 then .rndb p len g else .rndh p len g := by
  rw [decode, cmdOp_encodeRender, cmdMode_encodeRender, cmdPrec_encodeRender, cmdLen_encodeRender hmode hlen,
    cmdSep_encodeRender hmode, if_pos rfl]

/-! ### The fields of the word in a CMD write (30_encoding.md R60) -/

theorem cmdPrec_commandWord (v : Word) : cmdPrec (commandWord v) = if v.getLsbD 1 then .double else .single := by
  simp [cmdPrec, commandWord]

theorem cmdMode_commandWord (v : Word) : cmdMode (commandWord v) = v.getLsbD 2 := by
  simp [cmdMode, commandWord]

theorem cmdSep_commandWord (v : Word) : cmdSep (commandWord v) = v.getLsbD 3 := by
  simp [cmdSep, commandWord]

theorem cmdLen_commandWord (v : Word) : cmdLen (commandWord v) = v.toNat % 256 / 16 := by
  simp [cmdLen_eq_div, commandWord]

/-- The decode rule over the bits of the written value (30_encoding.md R68). -/
theorem decode_commandWord (v : Word) :
    decode (commandWord v) =
      if v.getLsbD 0 = false then if v.getLsbD 1 = false then .exts else .extd
      else if v.getLsbD 2 = false then
        .rndh (if v.getLsbD 1 then .double else .single) (v.toNat % 256 / 16) (v.getLsbD 3)
      else .rndb (if v.getLsbD 1 then .double else .single) (v.toNat % 256 / 16) (v.getLsbD 3) := by
  rw [decode, cmdOp_commandWord, cmdMode_commandWord, cmdPrec_commandWord, cmdLen_commandWord, cmdSep_commandWord]
  cases v.getLsbD 0 with
  | false => cases v.getLsbD 1 <;> rfl
  | true => cases v.getLsbD 2 <;> rfl

/-! ### What a word selects -/

/-- With OP = 0 the decoder reads PREC and nothing above it (30_encoding.md R69). -/
theorem decode_extract_and_mask (h : cmdOp w = false) : decode w = decode (w &&& 0x03#8) := by
  have hop : cmdOp (w &&& 0x03#8) = cmdOp w := by simp [cmdOp]
  have hprec : cmdPrec (w &&& 0x03#8) = cmdPrec w := by simp [cmdPrec]
  rw [decode, decode, hop, hprec, h, if_neg Bool.false_ne_true, if_neg Bool.false_ne_true]

/-- The rows of the opcode map against the decoder: a word selects the row of the command it decodes to, and no other
(30_encoding.md R67). -/
theorem selects_eq_decide_mnemonic {r : OpcodeRow} (hr : r ∈ opcodeTable) (w : Byte) :
    r.selects w = decide (r.mnemonic = (decode w).mnemonic) := by
  revert r w
  decide

/-- Each mnemonic has one row. -/
theorem opcodeTable_filter_mnemonic (m : Mnemonic) :
    (opcodeTable.filter fun r => decide (r.mnemonic = m)).map OpcodeRow.mnemonic = [m] := by
  cases m <;> rfl

end Sys2Proof.Machine
end

section
/-! What running a command, or a step, never answers, and which operands make no difference (30_encoding.md R69). -/

namespace Sys2Proof.Machine

variable {i : Instr} {s : State}

/-- With PATTERN written a command has no fault left to record. -/
theorem recordAccess_exec_of_pv (a : HostAccess) (h : s.block.pv = true) :
    recordAccess a (exec i s) = exec i s := by
  rw [exec_of_pv i h, recordAccess_next]

theorem exec_ne_refused (i : Instr) (s : State) (r : Refusal) : exec i s ≠ .refused r := by
  cases hpv : s.block.pv with
  | false => rw [exec_of_not_pv i hpv]; nofun
  | true => rw [exec_of_pv i hpv]; nofun

theorem hostWrite_ne_refused (i : BitVec 3) (v : Word) (s : State) (r : Refusal) :
    hostWrite i v s ≠ .refused r := by
  unfold hostWrite
  split
  case h_2 => exact fun h => exec_ne_refused _ s r (recordAccess_refused_iff.mp h)
  all_goals nofun

theorem hostRead_ne_refused (i : BitVec 3) (s : State) (r : Refusal) : hostRead i s ≠ .refused r := by
  unfold hostRead
  split <;> nofun

theorem hostReadText_ne_refused (k : BitVec 7) (s : State) (r : Refusal) : hostReadText k s ≠ .refused r := by
  unfold hostReadText
  split <;> nofun

theorem hostAccess_ne_refused (a : HostAccess) (s : State) (r : Refusal) : hostAccess a s ≠ .refused r := by
  cases a with
  | write i v => exact hostWrite_ne_refused i v s r
  | read i => exact hostRead_ne_refused i s r
  | readText k => exact hostReadText_ne_refused k s r
  | reset => nofun

theorem step_ne_refused (s : State) (r : Refusal) : step s ≠ .refused r := by
  cases hp : s.pending with
  | nil => rw [step_nil hp]; nofun
  | cons a rest => rw [step_cons hp]; exact hostAccess_ne_refused a _ r

theorem clampLen_of_le {len : Nat} (h : 8 ≤ len) : clampLen len = 8 := Nat.min_eq_right h

end Sys2Proof.Machine
end

section
/-! What the assembler makes of the case of letters, and which commands it accepts (30_encoding.md R72, R73). -/

namespace Sys2Proof.Machine

/-! ### The case of letters -/

/-- No letter has the comment sign as its upper case. -/
theorem upperChar_eq_semicolon_iff (c : Char) : upperChar c = ';' ↔ c = ';' := by
  have hcode : ';'.toNat = 59 := rfl
  rcases upperChar_cases c with ⟨hlo, _, hupper⟩ | ⟨hsame, _⟩
  · refine iff_of_false (fun h => ?_) (fun h => ?_)
    · rw [h] at hupper
      omega
    · rw [h] at hlo
      omega
  · rw [hsame]

/-- The part of a line before its comment, in upper case, is the same for the line in upper case. -/
theorem code_map_upperChar (line : List Char) :
    ((line.map upperChar).takeWhile (· != ';')).map upperChar = (line.takeWhile (· != ';')).map upperChar := by
  have hcomment : (· != ';') ∘ upperChar = (· != ';') := funext fun c =>
    Bool.eq_iff_iff.mpr (by simp [upperChar_eq_semicolon_iff])
  have hidem : upperChar ∘ upperChar = upperChar := funext upperChar_upperChar
  rw [List.takeWhile_map, List.map_map, hcomment, hidem]

/-! ### The commands accepted -/

theorem parseLen_of_not_fits {text : List Char} {n : Nat} (hn : parseDecimal text = some n)
    (hlong : lenFits n = false) : parseLen text = .error .badLength := by
  rw [parseLen, hn]
  exact if_neg (by simp [hlong])

theorem except_bind_eq_ok {ε α β : Type} {x : Except ε α} {f : α → Except ε β} {b : β} :
    (x >>= f) = .ok b ↔ ∃ a, x = .ok a ∧ f a = .ok b := by
  cases x with
  | error e => exact ⟨nofun, nofun⟩
  | ok a => simp [bind, Except.bind]

/-- A render line that is accepted is the short form of R73, or a command whose LEN fits. -/
theorem parseRender_ok {full : Precision → Nat → Bool → Instr} {short : Precision → Instr}
    {operands : List (List Char)} {i : Instr} (h : parseRender full short operands = .ok i) :
    (∃ p, i = short p) ∨ ∃ p len g, lenFits len = true ∧ i = full p len g := by
  unfold parseRender at h
  split at h
  · obtain ⟨p, _, hi⟩ := except_bind_eq_ok.mp h
    exact .inl ⟨p, (Except.ok.inj hi).symm⟩
  · obtain ⟨p, _, h⟩ := except_bind_eq_ok.mp h
    obtain ⟨len, hlen, h⟩ := except_bind_eq_ok.mp h
    obtain ⟨g, _, hi⟩ := except_bind_eq_ok.mp h
    exact .inr ⟨p, len, g, parseLen_fits hlen, (Except.ok.inj hi).symm⟩
  · cases h

theorem parseRender_wellFormed {full : Precision → Nat → Bool → Instr} {short : Precision → Instr}
    {operands : List (List Char)} {i : Instr} (h : parseRender full short operands = .ok i)
    (hshort : ∀ p, (short p).wellFormed = true)
    (hfull : ∀ p len g, lenFits len = true → (full p len g).wellFormed = true) : i.wellFormed = true := by
  rcases parseRender_ok h with ⟨p, rfl⟩ | ⟨p, len, g, hlen, rfl⟩
  · exact hshort p
  · exact hfull p len g hlen

theorem lenFits_aliasLen (p : Precision) : lenFits (aliasLen p) = true := by cases p <;> rfl

theorem assembleCommand_wellFormed {mnemonic : List Char} {operands : List (List Char)} {i : Instr}
    (h : assembleCommand mnemonic operands = .ok i) : i.wellFormed = true := by
  unfold assembleCommand at h
  split at h
  · split at h <;> cases h
    rfl
  · split at h
    · split at h <;> cases h
      rfl
    · split at h
      · exact parseRender_wellFormed h lenFits_aliasLen fun _ _ _ => id
      · split at h
        · exact parseRender_wellFormed h lenFits_aliasLen fun _ _ _ => id
        · cases h

end Sys2Proof.Machine
end

section
/-! How the assembler takes a line apart: a word, white space, and three operands between commas (30_encoding.md R72,
R74). -/

namespace Sys2Proof.Machine

variable {c : Char} {cs v w x y z rest : List Char}

/-! ### Words -/

/-- A character that stands for itself in a line and separates nothing. -/
structure IsPlain (c : Char) : Prop where
  upper : upperChar c = c
  not_blank : isBlank c = false
  not_comma : c ≠ ','
  not_semicolon : c ≠ ';'

theorem isPlain_iff : IsPlain c ↔ upperChar c = c ∧ isBlank c = false ∧ c ≠ ',' ∧ c ≠ ';' :=
  ⟨fun ⟨hu, hb, hc, hs⟩ => ⟨hu, hb, hc, hs⟩, fun ⟨hu, hb, hc, hs⟩ => ⟨hu, hb, hc, hs⟩⟩

/-- A mnemonic or an operand, as the assembler finds it between white space and commas. -/
structure IsWord (w : List Char) : Prop where
  nonempty : w ≠ []
  plain : ∀ c ∈ w, IsPlain c

theorem IsWord.singleton (h : IsPlain c) : IsWord [c] := ⟨List.cons_ne_nil _ _, by simpa using h⟩

theorem IsWord.cons (h : IsPlain c) (hw : IsWord w) : IsWord (c :: w) :=
  ⟨List.cons_ne_nil _ _, List.forall_mem_cons.mpr ⟨h, hw.plain⟩⟩

/-! ### White space -/

theorem trimBlanks_space_cons (cs : List Char) : trimBlanks (' ' :: cs) = trimBlanks cs := rfl

theorem trimBlanks_of_ends (hne : cs ≠ []) (hhead : isBlank (cs.head hne) = false)
    (hlast : isBlank (cs.getLast hne) = false) : trimBlanks cs = cs := by
  have hfront : cs.dropWhile isBlank = cs :=
    List.dropWhile_eq_self_iff.mpr fun _ => by simp [← List.head_eq_getElem hne, hhead]
  have hback : cs.rdropWhile isBlank = cs := List.rdropWhile_eq_self_iff.mpr fun _ => by simp [hlast]
  rw [trimBlanks, hfront]
  exact hback

theorem trimBlanks_word (hw : IsWord w) : trimBlanks w = w :=
  trimBlanks_of_ends hw.nonempty (hw.plain _ (List.head_mem _)).not_blank
    (hw.plain _ (List.getLast_mem _)).not_blank

/-- A text that begins and ends with a word has nothing to trim. -/
theorem trimBlanks_between_words (hv : IsWord v) (cs : List Char) (hw : IsWord w) :
    trimBlanks (v ++ (cs ++ w)) = v ++ (cs ++ w) := by
  refine trimBlanks_of_ends (by simp [hv.nonempty]) ?_ ?_
  · rw [List.head_append_of_ne_nil hv.nonempty]
    exact (hv.plain _ (List.head_mem _)).not_blank
  · rw [List.getLast_append_of_ne_nil _ (by simp [hw.nonempty]), List.getLast_append_of_ne_nil _ hw.nonempty]
    exact (hw.plain _ (List.getLast_mem _)).not_blank

/-! ### Commas -/

theorem splitCommas_ne_nil (cs : List Char) : splitCommas cs ≠ [] := by
  cases cs with
  | nil => nofun
  | cons c cs =>
    rw [splitCommas]
    split
    · nofun
    · split <;> nofun

theorem splitCommas_comma_cons (cs : List Char) : splitCommas (',' :: cs) = [] :: splitCommas cs := by
  obtain ⟨w, ws, h⟩ := List.exists_cons_of_ne_nil (splitCommas_ne_nil cs)
  rw [splitCommas, h]
  rfl

theorem splitCommas_cons_of_ne (hc : c ≠ ',') {ws : List (List Char)} (h : splitCommas cs = w :: ws) :
    splitCommas (c :: cs) = (c :: w) :: ws := by
  rw [splitCommas, h]
  exact if_neg (by simpa using hc)

theorem splitCommas_append_comma (hw : ∀ c ∈ w, c ≠ ',') (cs : List Char) :
    splitCommas (w ++ ',' :: cs) = w :: splitCommas cs := by
  induction w with
  | nil => exact splitCommas_comma_cons cs
  | cons c w ih =>
    obtain ⟨hc, hw⟩ := List.forall_mem_cons.mp hw
    exact splitCommas_cons_of_ne hc (ih hw)

theorem splitCommas_of_no_comma (hw : ∀ c ∈ w, c ≠ ',') : splitCommas w = [w] := by
  induction w with
  | nil => rfl
  | cons c w ih =>
    obtain ⟨hc, hw⟩ := List.forall_mem_cons.mp hw
    exact splitCommas_cons_of_ne hc (ih hw)

/-! ### Three operands -/

/-- Three operands as `commandText` writes them, with a comma and a space between two. -/
def operandsText (x y z : List Char) : List Char := x ++ (", ".toList ++ y ++ ", ".toList ++ z)

theorem operandsText_ne_nil (hx : IsWord x) : operandsText x y z ≠ [] := by
  simp [operandsText, hx.nonempty]

theorem trimBlanks_operandsText (hx : IsWord x) (hz : IsWord z) :
    trimBlanks (operandsText x y z) = operandsText x y z :=
  trimBlanks_between_words hx _ hz

theorem splitCommas_operandsText (hx : IsWord x) (hy : IsWord y) (hz : IsWord z) :
    (splitCommas (operandsText x y z)).map trimBlanks = [x, y, z] := by
  have hcomma {w : List Char} (hw : IsWord w) : ∀ c ∈ w, c ≠ ',' := fun c hc => (hw.plain c hc).not_comma
  have hspace {w : List Char} (hw : IsWord w) : ∀ c ∈ ' ' :: w, c ≠ ',' :=
    List.forall_mem_cons.mpr ⟨by decide, hcomma hw⟩
  have hsplit : splitCommas (operandsText x y z) = [x, ' ' :: y, ' ' :: z] := by
    calc splitCommas (operandsText x y z)
        = splitCommas (x ++ ',' :: (' ' :: y ++ ',' :: ' ' :: z)) := by simp [operandsText]
      _ = [x, ' ' :: y, ' ' :: z] := by
        rw [splitCommas_append_comma (hcomma hx), splitCommas_append_comma (hspace hy),
          splitCommas_of_no_comma (hspace hz)]
  simp [hsplit, trimBlanks_space_cons, trimBlanks_word, hx, hy, hz]

/-! ### Lines -/

/-- A line without a comment and in upper case is taken as it stands. -/
theorem code_of_forall_upper {line : List Char} (h : ∀ c ∈ line, upperChar c = c ∧ c ≠ ';') :
    (line.takeWhile (· != ';')).map upperChar = line := by
  have hcode : line.takeWhile (· != ';') = line :=
    List.takeWhile_eq_self_iff.mpr fun c hc => bne_iff_ne.mpr (h c hc).2
  rw [hcode, List.map_congr_left fun c hc => (h c hc).1, List.map_id']

/-- A line that is a word, a space and a text with nothing to trim is the statement of that word with the operands of
that text. -/
theorem assembleLine_word_space (hw : IsWord w) (hrest : rest ≠ [])
    (hcode : ∀ c ∈ rest, upperChar c = c ∧ c ≠ ';') (htrim : trimBlanks rest = rest)
    (hline : trimBlanks (w ++ ' ' :: rest) = w ++ ' ' :: rest) :
    assembleLine (w ++ ' ' :: rest) =
      (do return some (← assembleStatement w ((splitCommas rest).map trimBlanks))) := by
  have hall : ∀ c ∈ w ++ ' ' :: rest, upperChar c = c ∧ c ≠ ';' :=
    List.forall_mem_append.mpr ⟨fun c hc => ⟨(hw.plain c hc).upper, (hw.plain c hc).not_semicolon⟩,
      List.forall_mem_cons.mpr ⟨by decide, hcode⟩⟩
  have hword : ∀ c ∈ w, (fun c => !isBlank c) c = true := fun c hc => by simp [(hw.plain c hc).not_blank]
  have htake : (w ++ ' ' :: rest).takeWhile (fun c => !isBlank c) = w := by
    rw [List.takeWhile_append_of_pos hword, List.takeWhile_cons_of_neg (by decide), List.append_nil]
  have hdrop : (w ++ ' ' :: rest).dropWhile (fun c => !isBlank c) = ' ' :: rest := by
    rw [List.dropWhile_append_of_pos hword, List.dropWhile_cons_of_neg (by decide)]
  simp [assembleLine, code_of_forall_upper hall, hline, htake, hdrop, trimBlanks_space_cons, htrim, hrest]

theorem assembleLine_operandsText (hw : IsWord w) (hx : IsWord x) (hy : IsWord y) (hz : IsWord z) :
    assembleLine (w ++ ' ' :: operandsText x y z) = (do return some (← assembleStatement w [x, y, z])) := by
  have hplain {w : List Char} (hw : IsWord w) : ∀ c ∈ w, upperChar c = c ∧ c ≠ ';' := fun c hc =>
    ⟨(hw.plain c hc).upper, (hw.plain c hc).not_semicolon⟩
  have hsep : ∀ c ∈ ", ".toList, upperChar c = c ∧ c ≠ ';' := by simp; decide
  have hcode : ∀ c ∈ operandsText x y z, upperChar c = c ∧ c ≠ ';' := by
    simp only [operandsText, List.forall_mem_append]
    exact ⟨hplain hx, ⟨⟨hsep, hplain hy⟩, hsep⟩, hplain hz⟩
  have hline : trimBlanks (w ++ ' ' :: operandsText x y z) = w ++ ' ' :: operandsText x y z := by
    simpa [operandsText] using
      trimBlanks_between_words hw (' ' :: (x ++ (", ".toList ++ y ++ ", ".toList))) hz
  rw [assembleLine_word_space hw (operandsText_ne_nil hx) hcode (trimBlanks_operandsText hx hz) hline,
    splitCommas_operandsText hx hy hz]

end Sys2Proof.Machine
end

section
/-! The operands of a render command as `commandText` writes them are read back (30_encoding.md R72). -/

namespace Sys2Proof.Machine

variable {len n d : Nat} {word : List Char} {full : Precision → Nat → Bool → Instr} {short : Precision → Instr}

/-! ### The letters of PREC and SEP -/

theorem isWord_precisionLetter (p : Precision) : IsWord [precisionLetter p] :=
  .singleton (isPlain_iff.mpr (by cases p <;> decide))

theorem parsePrecision_precisionLetter (p : Precision) : parsePrecision [precisionLetter p] = .ok p := by
  cases p <;> rfl

theorem isWord_sepLetter (g : Bool) : IsWord [sepLetter g] :=
  .singleton (isPlain_iff.mpr (by cases g <;> decide))

theorem parseSep_sepLetter (g : Bool) : parseSep [sepLetter g] = .ok g := by
  cases g <;> rfl

/-! ### The digits of LEN -/

theorem isPlain_digit (hd : d < 10) : IsPlain (Char.ofNat (48 + d)) := by
  rw [isPlain_iff]
  revert d
  decide

theorem digitValue_digit (hd : d < 10) : digitValue 10 (Char.ofNat (48 + d)) = some d := by
  revert d
  decide

theorem isWord_lenText (hn : n < 100) : IsWord (lenText n) := by
  unfold lenText
  split
  · next h => exact .singleton (isPlain_digit h)
  · exact .cons (isPlain_digit (by omega)) (.singleton (isPlain_digit (by omega)))

theorem parseDecimal_lenText (hn : n < 100) : parseDecimal (lenText n) = some n := by
  unfold lenText
  split
  · next h => simp [parseDecimal, digitsValue, digitValue_digit h]
  · have htens : n / 10 < 10 := by omega
    have hones : n % 10 < 10 := by omega
    simp only [parseDecimal, digitsValue, digitValue_digit htens, digitValue_digit hones]
    congr 1
    omega

theorem parseLen_lenText (hn : lenFits n = true) : parseLen (lenText n) = .ok n := by
  have hlt := lenFits_iff.mp hn
  rw [parseLen, parseDecimal_lenText (by omega)]
  exact if_pos hn

/-! ### The command -/

theorem renderOperandsText_eq_operandsText (p : Precision) (len : Nat) (g : Bool) :
    renderOperandsText p len g = operandsText [precisionLetter p] (lenText len) [sepLetter g] := rfl

theorem parseRender_operands (p : Precision) (hlen : lenFits len = true) (g : Bool) :
    parseRender full short [[precisionLetter p], lenText len, [sepLetter g]] = .ok (full p len g) := by
  simp only [parseRender, parsePrecision_precisionLetter, parseLen_lenText hlen, parseSep_sepLetter]
  rfl

/-- The line of a render command, for either mnemonic: `full` and `short` are the command and its R73 form,
which the statement parses. -/
theorem assembleLine_renderOperandsText (hword : IsWord word)
    (hstatement : ∀ operands, assembleStatement word operands =
      (do return cmdWrite (encode (← parseRender full short operands))))
    (p : Precision) (hlen : lenFits len = true) (g : Bool) :
    assembleLine (word ++ ' ' :: renderOperandsText p len g) = .ok (some (cmdWrite (encode (full p len g)))) := by
  have hlt := lenFits_iff.mp hlen
  rw [renderOperandsText_eq_operandsText, assembleLine_operandsText hword (isWord_precisionLetter p)
    (isWord_lenText (by omega)) (isWord_sepLetter g), hstatement, parseRender_operands p hlen g]
  rfl

/-- The render mnemonics are words: they differ in their last letter. -/
theorem isWord_RND (h : IsPlain c) : IsWord ['R', 'N', 'D', c] :=
  .cons (isPlain_iff.mpr (by decide)) <| .cons (isPlain_iff.mpr (by decide)) <|
    .cons (isPlain_iff.mpr (by decide)) <| .singleton h

end Sys2Proof.Machine
end

section
/-! The obligations about the encoding (30_encoding.md). -/

namespace Sys2Proof.Machine

/-- Settles O4: the extract words are two constants; a render word is read back field by field. -/
theorem decodeEncode : Obligations.DecodeEncode := by
  intro i hi
  cases i with
  | exts => rfl
  | extd => rfl
  | rndh p len g => exact decode_encodeRender (by decide) (lenFits_iff.mp hi)
  | rndb p len g => exact decode_encodeRender (by decide) (lenFits_iff.mp hi)

/-- Settles O6: a render line is taken apart into its mnemonic and operands, and each is read back. -/
theorem assembledTextIsTheCommand : Obligations.AssembledTextIsTheCommand := by
  intro i hi
  cases i with
  | exts => rfl
  | extd => rfl
  | rndh p len g =>
    exact assembleLine_renderOperandsText (isWord_RND (isPlain_iff.mpr (by decide))) (fun _ => rfl) p hi g
  | rndb p len g =>
    exact assembleLine_renderOperandsText (isWord_RND (isPlain_iff.mpr (by decide))) (fun _ => rfl) p hi g

/-- Settles O7: a line enters the assembler only by its code in upper case. -/
theorem assemblerIgnoresCase : Obligations.AssemblerIgnoresCase := by
  intro line
  rw [assembleLine, assembleLine, code_map_upperChar]

/-- Settles O8: a LEN above 15 does not fit, and every LEN that is accepted fits. -/
theorem assemblerRefusesLongLen : Obligations.AssemblerRefusesLongLen :=
  ⟨fun _ _ hn hlong => parseLen_of_not_fits hn (decide_eq_false (by omega)),
    fun _ _ _ => assembleCommand_wellFormed⟩

/-- Settles O11: without PATTERN the write faults; with it the step is `exec` of the decoded word, bit by bit. -/
theorem executeFollowsTheDecodeRule : Obligations.ExecuteFollowsTheDecodeRule := by
  intro s v rest h
  constructor
  · intro hpv
    rw [step_cmdWrite h, hpv, if_neg Bool.false_ne_true]
  · intro hpv s' prec len sep
    have hstep : step s = exec (decode (commandWord v)) s' :=
      (step_write_cmd h).trans (recordAccess_exec_of_pv _ hpv)
    rw [hstep, decode_commandWord]
    simp only [apply_ite (exec · s')]
    rfl

/-- Settles O12: with PATTERN written a command is its effect on the block, which sees LEN only through the clamp. -/
theorem noWordIsIllegal : Obligations.NoWordIsIllegal := by
  refine ⟨fun w s hpv => ⟨_, exec_of_pv _ hpv⟩, fun w => decode_extract_and_mask, by decide, by decide,
    fun p len g s h9 _ hpv => ?_⟩
  have hclamp : clampLen len = clampLen 8 := clampLen_of_le (by omega)
  simp only [exec_of_pv _ hpv, commandEffect, hclamp, and_self]

/-- Settles O44: every access and every command answers a next state or a fault. -/
theorem nothingIsRefused : Obligations.NothingIsRefused :=
  fun s i r => ⟨step_ne_refused s r, exec_ne_refused i s r⟩

/-- Settles O2: selecting a row is decoding to its mnemonic, and each mnemonic has one row. -/
theorem everyWordSelectsOneRow : Obligations.EveryWordSelectsOneRow := by
  refine ⟨rfl, fun w => ?_, by decide⟩
  rw [List.filter_congr fun r hr => selects_eq_decide_mnemonic hr w]
  exact opcodeTable_filter_mnemonic _

/-- Settles O3: the ten words are decoded. -/
theorem writtenWordsDecode : Obligations.WrittenWordsDecode := by
  unfold Obligations.WrittenWordsDecode
  decide

/-- Settles O5: the rule's formula is `encodeRender_toNat`, and the letter `D` stands for the bit 1. -/
theorem encodingTable : Obligations.EncodingTable := by
  refine ⟨rfl, rfl, fun d g len hlen => ?_⟩
  have hbit : (if d then Precision.double else .single).bit.toNat = d.toNat := by cases d <;> rfl
  have hlt : len < 16 := by omega
  rw [encode, encode, encodeRender_toNat (by decide) hlt, encodeRender_toNat (by decide) hlt, hbit]
  exact ⟨rfl, rfl⟩

/-- Settles O9: the four lines are assembled; the aliases are what their definitions say. -/
theorem aliasesExpand : Obligations.AliasesExpand := by
  refine ⟨rfl, rfl, rfl, rfl, fun p => ?_⟩
  cases p with
  | single => exact ⟨rfl, rfl⟩
  | double => exact ⟨rfl, rfl⟩

/-- Settles O10: a CMD write is the recorded `exec`, and with PATTERN written there is no fault to record. -/
theorem stepRunsDecodedCommand : Obligations.StepRunsDecodedCommand := by
  intro s v rest h run
  have hstep : step s = recordAccess (.write 7 v) run := step_write_cmd h
  exact ⟨hstep, fun hpv => hstep.trans (recordAccess_exec_of_pv _ hpv)⟩

end Sys2Proof.Machine
end

section
/-! The fields of an extract as words: masks, display groups and bytes of the pattern (40_extract.md R82 to R89), from
their numbers in Laws/Extract; and the pattern put together from the fields. -/

namespace Sys2Proof.Machine

variable {v : Word} {k : Nat}

/-! ### Masks, groups and bytes as numbers -/

theorem toNat_and_lowMask {w : Nat} (x : BitVec w) {mask : BitVec w} (hmask : mask.toNat = 2 ^ k - 1) :
    (x &&& mask).toNat = x.toNat % 2 ^ k := by
  rw [BitVec.toNat_and, hmask, Nat.and_two_pow_sub_one_eq_mod]

theorem extractLsb'_toNat_eq_div_mod (v : Word) (start len : Nat) :
    (v.extractLsb' start len).toNat = v.toNat / 2 ^ start % 2 ^ len := by
  rw [BitVec.extractLsb'_toNat, Nat.shiftRight_eq_div_pow]

theorem Block.expHi_toNat (b : Block) : b.expHi.toNat = b.expRaw.toNat / 2 ^ 8 % 2 ^ 3 :=
  extractLsb'_toNat_eq_div_mod b.expRaw 8 3

theorem Block.expLo8_toNat (b : Block) : b.expLo8.toNat = b.expRaw.toNat % 2 ^ 8 := by
  rw [Block.expLo8, BitVec.extractLsb_toNat, Nat.shiftRight_zero]

/-! ### The exponent -/

theorem singleFields_expRaw_toNat_eq_slice (v : Word) :
    (singleFields v).expRaw.toNat = (v.extractLsb' 23 8).toNat := by
  rw [singleFields_expRaw_toNat, extractLsb'_toNat_eq_div_mod]
  omega

theorem doubleFields_expRaw_toNat_eq_slice (v : Word) :
    (doubleFields v).expRaw.toNat = (v.extractLsb' 52 11).toNat := by
  rw [doubleFields_expRaw_toNat, extractLsb'_toNat_eq_div_mod]

theorem singleFields_expRaw_eq_mask (v : Word) : (singleFields v).expRaw = (v >>> 23) &&& 0xFF#64 := by
  apply BitVec.eq_of_toNat_eq
  rw [singleFields_expRaw_toNat_eq_slice, toNat_and_lowMask (k := 8) _ rfl, BitVec.extractLsb'_toNat,
    BitVec.toNat_ushiftRight]

theorem doubleFields_expRaw_eq_mask (v : Word) : (doubleFields v).expRaw = (v >>> 52) &&& 0x7FF#64 := by
  apply BitVec.eq_of_toNat_eq
  rw [doubleFields_expRaw_toNat_eq_slice, toNat_and_lowMask (k := 11) _ rfl, BitVec.extractLsb'_toNat,
    BitVec.toNat_ushiftRight]

/-- The unbiased exponent is the exact difference of the raw one and the bias (40_extract.md R92). -/
theorem singleFields_expUnb_toInt_eq_expRaw_sub (v : Word) :
    (singleFields v).expUnb.toInt = ((singleFields v).expRaw.toNat : Int) - 127 := by
  rw [singleFields_expUnb_toInt, singleFields_expRaw_toNat]

theorem doubleFields_expUnb_toInt_eq_expRaw_sub (v : Word) :
    (doubleFields v).expUnb.toInt = ((doubleFields v).expRaw.toNat : Int) - 1023 := by
  rw [doubleFields_expUnb_toInt, doubleFields_expRaw_toNat]

/-! ### The mantissa with its mark -/

theorem singleFields_mant_eq_or (v : Word) : (singleFields v).mant = 0x800000#64 ||| (v &&& 0x7FFFFF#64) := by
  apply BitVec.eq_of_toNat_eq
  rw [singleFields_mant_toNat, BitVec.toNat_or, toNat_and_lowMask (k := 23) _ rfl]
  exact (two_pow_or_eq_add 1 _ 23 (Nat.mod_lt _ (by decide))).symm

theorem doubleFields_mant_eq_or (v : Word) : (doubleFields v).mant = (1#64 <<< 52) ||| (v &&& 0xFFFFFFFFFFFFF#64) := by
  apply BitVec.eq_of_toNat_eq
  rw [doubleFields_mant_toNat, BitVec.toNat_or, toNat_and_lowMask (k := 52) _ rfl]
  exact (two_pow_or_eq_add 1 _ 52 (Nat.mod_lt _ (by decide))).symm

/-- A byte below the mark, all of it under the mask, is the pattern's own. -/
theorem byteAt_marked_low {mark mask : Word} {p : Nat} (hmark : byteAt mark p = 0)
    (hmask : byteAt mask p = BitVec.allOnes 8) : byteAt (mark ||| (v &&& mask)) p = byteAt v p := by
  simp only [byteAt] at hmark hmask ⊢
  rw [BitVec.extractLsb'_or, BitVec.extractLsb'_and, hmark, hmask, BitVec.and_allOnes]
  exact BitVec.zero_or

/-- The byte of the mark is the mark beside the top bits of the stored mantissa. -/
theorem byteAt_marked_top {mark mask : Word} {p : Nat} (hk : k ≤ 8) (hmask : (byteAt mask p).toNat = 2 ^ k - 1) :
    byteAt (mark ||| (v &&& mask)) p = byteAt mark p ||| (v.extractLsb' (8 * p) k).setWidth 8 := by
  have htop : byteAt v p &&& byteAt mask p = (v.extractLsb' (8 * p) k).setWidth 8 := by
    apply BitVec.eq_of_toNat_eq
    rw [toNat_and_lowMask _ hmask, byteAt_toNat, Nat.mod_mod_of_dvd _ (Nat.pow_dvd_pow 2 hk),
      BitVec.toNat_setWidth_of_le hk, extractLsb'_toNat_eq_div_mod]
  rw [← htop]
  simp only [byteAt, BitVec.extractLsb'_or, BitVec.extractLsb'_and]

theorem byteAt_singleFields_mant_low (v : Word) {p : Nat} (hp : p < 2) :
    byteAt (singleFields v).mant p = byteAt v p := by
  rw [singleFields_mant_eq_or]
  interval_cases p <;> exact byteAt_marked_low rfl rfl

theorem byteAt_singleFields_mant_top (v : Word) :
    byteAt (singleFields v).mant 2 = 0x80#8 ||| (v.extractLsb' 16 7).setWidth 8 := by
  rw [singleFields_mant_eq_or]
  exact byteAt_marked_top (k := 7) (by decide) rfl

theorem byteAt_doubleFields_mant_low (v : Word) {p : Nat} (hp : p < 6) :
    byteAt (doubleFields v).mant p = byteAt v p := by
  rw [doubleFields_mant_eq_or]
  interval_cases p <;> exact byteAt_marked_low rfl rfl

theorem byteAt_doubleFields_mant_top (v : Word) :
    byteAt (doubleFields v).mant 6 = 0x10#8 ||| (v.extractLsb' 48 4).setWidth 8 := by
  rw [doubleFields_mant_eq_or]
  exact byteAt_marked_top (k := 4) (by decide) rfl

/-- A 24-bit value is its three bytes (00_scope.md R14). -/
theorem toNat_eq_three_bytes (h : v.toNat < 2 ^ 24) :
    v.toNat = (byteAt v 2).toNat * 2 ^ 16 + (byteAt v 1).toNat * 2 ^ 8 + (byteAt v 0).toNat := by
  simp only [byteAt_toNat]
  omega

theorem mantissaBytes_writeFields_single (f : Fields) (b : Block) :
    (b.writeFields .single f).mantissaBytes = [byteAt f.mant 2, byteAt f.mant 1, byteAt f.mant 0] := rfl

theorem mantissaBytes_writeFields_double (f : Fields) (b : Block) :
    (b.writeFields .double f).mantissaBytes =
      [byteAt f.mant 6, byteAt f.mant 5, byteAt f.mant 4, byteAt f.mant 3, byteAt f.mant 2, byteAt f.mant 1,
        byteAt f.mant 0] := rfl

/-! ### All fields at once -/

/-- The Single fields as the words of R82 to R84. -/
theorem singleFields_eq_arithmetic (v : Word) :
    singleFields v =
      { sign := BitVec.ofNat 64 (v.toNat % 2 ^ 32 / 2 ^ 31)
        expRaw := BitVec.ofNat 64 (v.toNat % 2 ^ 32 / 2 ^ 23 % 2 ^ 8)
        expUnb := BitVec.ofInt 64 (((v.toNat % 2 ^ 32 / 2 ^ 23 % 2 ^ 8 : Nat) : Int) - 127)
        mant := BitVec.ofNat 64 (2 ^ 23 + v.toNat % 2 ^ 32 % 2 ^ 23) } := by
  rw [Nat.mod_mod_of_dvd v.toNat (by decide : 2 ^ 23 ∣ 2 ^ 32), ← singleFields_sign_toNat,
    ← singleFields_expUnb_toInt, ← singleFields_expRaw_toNat, ← singleFields_mant_toNat]
  simp only [BitVec.ofNat_toNat, BitVec.setWidth_eq, BitVec.ofInt_toInt]

/-- The Double fields as the words of R87 to R89. -/
theorem doubleFields_eq_arithmetic (v : Word) :
    doubleFields v =
      { sign := BitVec.ofNat 64 (v.toNat / 2 ^ 63)
        expRaw := BitVec.ofNat 64 (v.toNat / 2 ^ 52 % 2 ^ 11)
        expUnb := BitVec.ofInt 64 (((v.toNat / 2 ^ 52 % 2 ^ 11 : Nat) : Int) - 1023)
        mant := BitVec.ofNat 64 (2 ^ 52 + v.toNat % 2 ^ 52) } := by
  rw [← doubleFields_sign_toNat, ← doubleFields_expUnb_toInt, ← doubleFields_expRaw_toNat, ← doubleFields_mant_toNat]
  simp only [BitVec.ofNat_toNat, BitVec.setWidth_eq, BitVec.ofInt_toInt]

/-! ### The fields put together -/

/-- Bits moved above those of another word do not overlap it, so the OR is the sum. -/
theorem toNat_shiftLeft_or {x y : Word} (hx : x.toNat * 2 ^ k < 2 ^ 64) (hy : y.toNat < 2 ^ k) :
    (x <<< k ||| y).toNat = x.toNat * 2 ^ k + y.toNat := by
  rw [BitVec.toNat_or, BitVec.toNat_shiftLeft, Nat.shiftLeft_eq, Nat.mod_eq_of_lt hx, Nat.mul_comm,
    two_pow_or_eq_add _ _ _ hy]

/-- Sign, exponent and mantissa at their places, as a number (40_extract.md R93). -/
theorem toNat_placedFields {s e m : Word} {j : Nat} (he : e.toNat < 2 ^ j) (hm : m.toNat < 2 ^ k)
    (hfit : (s.toNat * 2 ^ j + e.toNat) * 2 ^ k < 2 ^ 64) :
    (s <<< (j + k) ||| e <<< k ||| m).toNat = (s.toNat * 2 ^ j + e.toNat) * 2 ^ k + m.toNat := by
  have hle : s.toNat * 2 ^ j + e.toNat ≤ (s.toNat * 2 ^ j + e.toNat) * 2 ^ k :=
    Nat.le_mul_of_pos_right _ (Nat.two_pow_pos k)
  have hhigh : (s <<< j ||| e).toNat = s.toNat * 2 ^ j + e.toNat := toNat_shiftLeft_or (by omega) he
  rw [BitVec.shiftLeft_add, ← BitVec.shiftLeft_or_distrib, toNat_shiftLeft_or (hhigh ▸ hfit) hm, hhigh]

theorem singleFields_placed_toNat (v : Word) :
    ((singleFields v).sign <<< 31 ||| (singleFields v).expRaw <<< 23 |||
      ((singleFields v).mant &&& 0x7FFFFF#64)).toNat = v.toNat % 2 ^ 32 := by
  have hs := singleFields_sign_toNat v
  have he := singleFields_expRaw_toNat v
  have hm := toNat_and_lowMask (k := 23) (mask := 0x7FFFFF#64) (singleFields v).mant rfl
  rw [singleFields_mant_toNat] at hm
  rw [toNat_placedFields (j := 8) (k := 23) (by omega) (by omega) (by omega)]
  omega

theorem doubleFields_placed_toNat (v : Word) :
    ((doubleFields v).sign <<< 63 ||| (doubleFields v).expRaw <<< 52 |||
      ((doubleFields v).mant &&& 0xFFFFFFFFFFFFF#64)).toNat = v.toNat := by
  have hv := v.isLt
  have hs := doubleFields_sign_toNat v
  have he := doubleFields_expRaw_toNat v
  have hm := toNat_and_lowMask (k := 52) (mask := 0xFFFFFFFFFFFFF#64) (doubleFields v).mant rfl
  rw [doubleFields_mant_toNat] at hm
  rw [toNat_placedFields (j := 11) (k := 52) (by omega) (by omega) (by omega)]
  omega

end Sys2Proof.Machine
end

section
/-! The obligations about the extracts (40_extract.md). -/

namespace Sys2Proof.Machine

variable {s t : State}

/-! ### What a completed command wrote -/

theorem exec_exts_block (h : exec .exts s = .next t) :
    t.block = s.block.writeFields .single (singleFields s.block.pattern) := by
  obtain ⟨_, rfl⟩ := exec_next_iff.mp h
  rfl

theorem exec_extd_block (h : exec .extd s = .next t) :
    t.block = s.block.writeFields .double (doubleFields s.block.pattern) := by
  obtain ⟨_, rfl⟩ := exec_next_iff.mp h
  rfl

/-- What an extract writes is fixed by the pattern (40_extract.md R80). -/
theorem commandEffect_extract_of_pattern {i : Instr} (hi : i = .exts ∨ i = .extd) (v : Word) :
    ∃ p f, ∀ b : Block, b.pattern = v → commandEffect i b = b.writeFields p f := by
  rcases hi with rfl | rfl
  · exact ⟨.single, singleFields v, fun b hb => hb ▸ rfl⟩
  · exact ⟨.double, doubleFields v, fun b hb => hb ▸ rfl⟩

/-- What a render writes is fixed by the pattern (41_render.md R100). -/
theorem commandEffect_render_of_pattern {i : Instr} {p : Precision} {len : Nat} {g : Bool}
    (hi : i = .rndh p len g ∨ i = .rndb p len g) (v : Word) :
    ∃ str, ∀ b : Block, b.pattern = v → commandEffect i b = b.writeText str := by
  rcases hi with rfl | rfl
  · exact ⟨renderString hexUnit g (renderSource p v) (clampLen len), fun b hb => hb ▸ rfl⟩
  · exact ⟨renderString binUnit g (renderSource p v) (clampLen len), fun b hb => hb ▸ rfl⟩

/-! ### The obligations -/

/-- Settles O17: with PV = 1 the block is written with the Single fields, which are the arithmetic of the rules. -/
theorem extsResult : Obligations.ExtsResult := by
  refine fun s => ⟨fun hpv => ?_, fun hpv => ⟨_, exec_of_not_pv _ hpv⟩⟩
  rw [exec_of_pv _ hpv, commandEffect, singleFields_eq_arithmetic]
  rfl

/-- Settles O18: with PV = 1 the block is written with the Double fields, which are the arithmetic of the rules. -/
theorem extdResult : Obligations.ExtdResult := by
  refine fun s => ⟨fun hpv => ?_, fun hpv => ⟨_, exec_of_not_pv _ hpv⟩⟩
  rw [exec_of_pv _ hpv, commandEffect, doubleFields_eq_arithmetic]
  rfl

/-- Settles O19: MANT is the mark beside the low 23 bits, read byte by byte. -/
theorem singleMantissaBytes : Obligations.SingleMantissaBytes := by
  intro s t h b m0 m1 m2
  have h0 : byteAt (singleFields b).mant 2 = m0 := byteAt_singleFields_mant_top b
  have h1 : byteAt (singleFields b).mant 1 = m1 := byteAt_singleFields_mant_low b (by decide)
  have h2 : byteAt (singleFields b).mant 0 = m2 := byteAt_singleFields_mant_low b (by decide)
  rw [exec_exts_block h, mantissaBytes_writeFields_single, Block.writeFields_mant, ← h0, ← h1, ← h2]
  refine ⟨rfl, toNat_eq_three_bytes ?_, singleFields_mant_eq_or b⟩
  rw [singleFields_mant_toNat]
  omega

/-- Settles O20: MANT is the mark beside the low 52 bits, read byte by byte. -/
theorem doubleMantissaBytes : Obligations.DoubleMantissaBytes := by
  intro s t h b
  rw [exec_extd_block h, mantissaBytes_writeFields_double, Block.writeFields_mant]
  refine ⟨?_, doubleFields_mant_eq_or b⟩
  simp (disch := decide) only [byteAt_doubleFields_mant_top, byteAt_doubleFields_mant_low]
  rfl

/-- Settles O21: the groups are the two parts of the raw exponent, which is below 2^11. -/
theorem doubleExponentGroups : Obligations.DoubleExponentGroups := by
  intro s t h b
  have hraw : t.block.expRaw = (doubleFields b).expRaw := congrArg Block.expRaw (exec_extd_block h)
  have hslice : t.block.expRaw.toNat = b.toNat / 2 ^ 52 % 2 ^ 11 := hraw ▸ doubleFields_expRaw_toNat b
  have hunb : t.block.expUnb.toInt = (t.block.expRaw.toNat : Int) - 1023 := by
    rw [exec_extd_block h]
    exact doubleFields_expUnb_toInt_eq_expRaw_sub b
  have hhi := t.block.expHi_toNat
  have hlo := t.block.expLo8_toNat
  refine ⟨BitVec.eq_of_toNat_eq ?_, BitVec.eq_of_toNat_eq ?_, hraw.trans (doubleFields_expRaw_eq_mask b), ?_, ?_, ?_⟩
  · rw [extractLsb'_toNat_eq_div_mod]; omega
  · rw [extractLsb'_toNat_eq_div_mod]; omega
  all_goals omega

/-- Settles O22: the raw exponent is below 2^8, so its upper group is 0 and the difference is in range. -/
theorem singleExponentLaw : Obligations.SingleExponentLaw := by
  intro s t h
  have hraw : t.block.expRaw = (singleFields s.block.pattern).expRaw := congrArg Block.expRaw (exec_exts_block h)
  have hlt : t.block.expRaw.toNat < 2 ^ 8 := by
    rw [hraw, singleFields_expRaw_toNat]
    omega
  have hunb : t.block.expUnb.toInt = (t.block.expRaw.toNat : Int) - 127 := by
    rw [exec_exts_block h]
    exact singleFields_expUnb_toInt_eq_expRaw_sub _
  refine ⟨hraw.trans (singleFields_expRaw_eq_mask _), BitVec.eq_of_toNat_eq ?_, hunb, by omega, by omega⟩
  rw [Block.expHi_toNat, Nat.div_eq_of_lt hlt]
  rfl

/-- Settles O23: the exponent cases by its slice, the two zeros by evaluation, the upper half by the law of the Single
commands. -/
theorem singleCornerCases : Obligations.SingleCornerCases := by
  intro s t h b
  have hblock := exec_exts_block h
  have hunb : t.block.expUnb.toInt = ((b.extractLsb' 23 8).toNat : Int) - 127 := by
    rw [hblock, ← singleFields_expRaw_toNat_eq_slice]
    exact singleFields_expUnb_toInt_eq_expRaw_sub b
  refine ⟨fun h0 => ⟨by rw [hunb, h0]; rfl, ?_⟩, fun h255 => by rw [hunb, h255]; rfl, fun hneg => ?_, fun hpos => ?_,
    fun upper => singleCommandsIgnoreUpperHalf s t .exts 0 false _ (.inl rfl) BitVec.setWidth_append_eq_right h⟩
  · rw [hblock, Block.writeFields_mant, singleFields_mant_eq_or, BitVec.getLsbD_or]
    rfl
  · rw [hblock, singleFields_congr (w := 0x80000000) hneg]
    exact ⟨rfl, rfl, rfl, rfl⟩
  · rw [hblock, singleFields_congr (w := 0) hpos]
    exact ⟨rfl, rfl, rfl, rfl⟩

/-- Settles O24: the exponent cases by its slice, the two zeros by evaluation, the unused bits of MANT by its size. -/
theorem doubleCornerCases : Obligations.DoubleCornerCases := by
  intro s t h b
  have hblock := exec_extd_block h
  have hraw : t.block.expRaw.toNat = (b.extractLsb' 52 11).toNat := by
    rw [hblock]
    exact doubleFields_expRaw_toNat_eq_slice b
  have hunb : t.block.expUnb.toInt = ((b.extractLsb' 52 11).toNat : Int) - 1023 := by
    rw [← hraw, hblock]
    exact doubleFields_expUnb_toInt_eq_expRaw_sub b
  have hmant : t.block.mant.toNat < 2 ^ 53 := by
    rw [hblock, Block.writeFields_mant, doubleFields_mant_toNat]
    omega
  refine ⟨fun h0 => ⟨by rw [hunb, h0]; rfl, ?_⟩, fun hmax => ⟨?_, ?_, by rw [hunb, hmax]; rfl⟩, fun hneg => ?_,
    fun hpos => ?_, BitVec.eq_of_toNat_eq ?_⟩
  · rw [hblock, Block.writeFields_mant, doubleFields_mant_eq_or, BitVec.getLsbD_or]
    rfl
  · apply BitVec.eq_of_toNat_eq
    rw [Block.expHi_toNat, hraw, hmax]
    rfl
  · apply BitVec.eq_of_toNat_eq
    rw [Block.expLo8_toNat, hraw, hmax]
    rfl
  · rw [hblock, show s.block.pattern = _ from hneg]
    exact ⟨rfl, rfl, rfl, rfl⟩
  · rw [hblock, show s.block.pattern = _ from hpos]
    exact ⟨rfl, rfl, rfl, rfl⟩
  · rw [extractLsb'_toNat_eq_div_mod, Nat.div_eq_of_lt hmant]
    rfl

/-- Settles O25: the fields at their places are the pattern as a number. -/
theorem fieldsReassemblePattern : Obligations.FieldsReassemblePattern := by
  refine fun s t => ⟨fun h => BitVec.eq_of_toNat_eq ?_, fun h => BitVec.eq_of_toNat_eq ?_⟩
  · have hlow := singleFields_placed_toNat s.block.pattern
    rw [exec_exts_block h, BitVec.toNat_setWidth, BitVec.toNat_setWidth, ← Nat.mod_mod, ← hlow]
    rfl
  · rw [exec_extd_block h]
    exact (doubleFields_placed_toNat _).symm

/-- Settles O37: both states' commands write the same fields, or the same text. -/
theorem resultsDependOnPatternAlone : Obligations.ResultsDependOnPatternAlone := by
  refine fun s s' t t' hpat => ⟨fun i hi h h' => ?_, fun i p len g hi h h' => ?_⟩
  · obtain ⟨p, f, heffect⟩ := commandEffect_extract_of_pattern hi s'.block.pattern
    obtain ⟨_, rfl⟩ := exec_next_iff.mp h
    obtain ⟨_, rfl⟩ := exec_next_iff.mp h'
    rw [heffect _ hpat, heffect _ rfl]
    exact ⟨rfl, rfl, rfl, rfl, rfl, rfl⟩
  · obtain ⟨str, heffect⟩ := commandEffect_render_of_pattern hi s'.block.pattern
    obtain ⟨_, rfl⟩ := exec_next_iff.mp h
    obtain ⟨_, rfl⟩ := exec_next_iff.mp h'
    rw [heffect _ hpat, heffect _ rfl]
    exact ⟨rfl, rfl⟩

end Sys2Proof.Machine
end

section
/-! The text of a render, for units of either mode: what the buffer holds at each place (41_render.md R103 to R106,
R110, R112), and that a full-length text gives the source back. -/

namespace Sys2Proof.Machine

variable {unit : Byte → List Char} {u len q j k : Nat} {g : Bool} {c : Char} {src : Word} {b : Block}

/-! ### Bytes and numbers -/

/-- A 64-bit value is its eight bytes (00_scope.md R14). -/
theorem eq_of_byteAt_eq {v w : Word} (h : ∀ q < 8, byteAt v q = byteAt w q) : v = w := by
  refine BitVec.eq_of_getLsbD_eq fun k hk => ?_
  have hbit := congrArg (·.getLsbD (k % 8)) (h (k / 8) (by omega))
  simpa [byteAt, Nat.mod_lt, Nat.div_add_mod] using hbit

theorem highNibble_byteAt_toNat (v : Word) (q : Nat) :
    ((byteAt v q).extractLsb 7 4).toNat = v.toNat / 2 ^ (8 * q + 4) % 16 := by
  rw [BitVec.extractLsb_toNat, byteAt_toNat, Nat.shiftRight_eq_div_pow, pow_add 2 (8 * q), ← Nat.div_div_eq_div_mul]
  omega

theorem lowNibble_byteAt_toNat (v : Word) (q : Nat) :
    ((byteAt v q).extractLsb 3 0).toNat = v.toNat / 2 ^ (8 * q) % 16 := by
  rw [BitVec.extractLsb_toNat, byteAt_toNat]
  exact Nat.mod_mod_of_dvd _ (by decide)

theorem getLsbD_byteAt_toNat (h : j < 8) (v : Word) (q : Nat) :
    ((byteAt v q).getLsbD j).toNat = v.toNat / 2 ^ (8 * q + j) % 2 := by
  rw [byteAt, BitVec.getLsbD_extractLsb', decide_eq_true h, Bool.true_and, BitVec.getLsbD, Nat.toNat_testBit]

/-! ### The units of both modes (41_render.md R106) -/

/-- What a unit is in either mode: a fixed number of digits whose codes tell the byte. -/
structure IsDigitUnit (unit : Byte → List Char) (u : Nat) : Prop where
  length_eq : ∀ b, (unit b).length = u
  width_le : u ≤ 8
  isDigitCode_of_mem : ∀ b, ∀ c ∈ unit b, isDigitCode (charCode c)
  codes_injective : ∀ a b, (unit a).map charCode = (unit b).map charCode → a = b

theorem charCode_hexDigit_inj {d e : BitVec 4} (h : charCode (hexDigit d) = charCode (hexDigit e)) : d = e := by
  have hcode := congrArg BitVec.toNat h
  simp only [hexDigit_code] at hcode
  apply BitVec.eq_of_toNat_eq
  split at hcode <;> split at hcode <;> omega

theorem charCode_bitDigit_inj {x y : Bool} (h : charCode (bitDigit x) = charCode (bitDigit y)) : x = y := by
  revert x y; decide

theorem isDigitUnit_hexUnit : IsDigitUnit hexUnit 2 where
  length_eq := length_hexUnit
  width_le := by decide
  isDigitCode_of_mem _ _ := isDigitCode_of_mem_hexUnit
  codes_injective a b h := by
    simp only [hexUnit, List.map_cons, List.map_nil, List.cons.injEq, and_true] at h
    obtain ⟨hhigh, hlow⟩ := h
    calc a = a.extractLsb' 4 4 ++ a.extractLsb' 0 4 := (BitVec.extractLsb'_append_extractLsb' (w := 4) (len := 4)).symm
      _ = b.extractLsb' 4 4 ++ b.extractLsb' 0 4 :=
        congrArg₂ (· ++ ·) (charCode_hexDigit_inj hhigh) (charCode_hexDigit_inj hlow)
      _ = b := BitVec.extractLsb'_append_extractLsb' (w := 4) (len := 4)

theorem isDigitUnit_binUnit : IsDigitUnit binUnit 8 where
  length_eq := length_binUnit
  width_le := le_rfl
  isDigitCode_of_mem _ _ := isDigitCode_of_mem_binUnit
  codes_injective a b h := by
    simp only [binUnit, List.map_cons, List.map_nil, List.cons.injEq, and_true] at h
    obtain ⟨h7, h6, h5, h4, h3, h2, h1, h0⟩ := h
    refine BitVec.eq_of_getLsbD_eq fun k hk => charCode_bitDigit_inj ?_
    interval_cases k <;> assumption

/-- A binary unit goes from the most significant bit down (41_render.md R106). -/
theorem binUnit_getElem? {b : Byte} (hj : j < 8) : (binUnit b)[j]? = some (bitDigit (b.getLsbD (7 - j))) := by
  interval_cases j <;> rfl

/-! ### What the buffer holds after a render -/

theorem textAt_writeText_of_getElem? {str : List Char} (hlen : str.length ≤ 71) (h : str[k]? = some c) :
    (b.writeText str).textAt k = charCode c := by
  obtain ⟨hk, _⟩ := List.getElem?_eq_some_iff.mp h
  rw [textAt_writeText_getElem? (by omega), h]
  rfl

theorem IsDigitUnit.length_le (hu : IsDigitUnit unit u) :
    (renderString unit g src (clampLen len)).length ≤ 71 :=
  length_renderString_le hu.length_eq hu.width_le g src len

/-- The length law (41_render.md R110). -/
theorem IsDigitUnit.textLen (hu : IsDigitUnit unit u) :
    (b.writeText (renderString unit g src (clampLen len))).textLen.toNat =
      clampLen len * u + (if g then clampLen len - 1 else 0) := by
  rw [writeText_textLen_toNat hu.length_le, length_renderString hu.length_eq]

theorem IsDigitUnit.textLegal (hu : IsDigitUnit unit u) :
    textLegal (b.writeText (renderString unit g src (clampLen len))) :=
  textLegal_renderString hu.length_eq hu.width_le hu.isDigitCode_of_mem g src len b

/-- Digit j of the unit of byte position q (41_render.md R103). -/
theorem IsDigitUnit.textAt_digit (hu : IsDigitUnit unit u) (hq : q < clampLen len)
    (hc : (unit (byteAt src q))[j]? = some c) :
    (b.writeText (renderString unit g src (clampLen len))).textAt
      ((clampLen len - 1 - q) * (u + if g then 1 else 0) + j) = charCode c := by
  have hj : j < u := hu.length_eq _ ▸ (List.getElem?_eq_some_iff.mp hc).1
  exact textAt_writeText_of_getElem? hu.length_le
    ((renderString_getElem?_digit hu.length_eq g src _ q j hq hj).trans hc)

/-- The separator after the unit of byte position q (41_render.md R105). -/
theorem IsDigitUnit.textAt_separator (hu : IsDigitUnit unit u) (hq : q < clampLen len) (h0 : q ≠ 0) :
    (b.writeText (renderString unit true src (clampLen len))).textAt ((clampLen len - 1 - q) * (u + 1) + u) =
      charCode (separator q) :=
  textAt_writeText_of_getElem? hu.length_le (renderString_getElem?_separator hu.length_eq src _ q hq h0)

theorem textAt_eq_zero_of_textLegal (h : textLegal b) (hk : b.textLen.toNat ≤ k) (hk72 : k < 72) :
    b.textAt k = 0 := by
  obtain ⟨_, htext⟩ := h
  simpa [Nat.not_lt.mpr hk] using htext k hk72

/-! ### The places of a text with separators (41_render.md R112) -/

theorem separatorLayout_getElem? : ∀ n ≤ 8, ∀ q < n, q ≠ 0 →
    (separatorLayout n)[n - 1 - q]? = some (charCode (separator q)) := by
  decide

/-- Place k of a text of n units of u digits with separators is place k mod (u + 1) of the unit at k / (u + 1) and its
separator, which stands after no unit of byte position 0. -/
theorem exists_unit_at_place {n : Nat} (hk : k < n * u + (n - 1)) :
    ∃ q < n, k / (u + 1) = n - 1 - q ∧ (k % (u + 1) = u → q ≠ 0) := by
  have hn : (u + 1) * n = n * u + n := by rw [Nat.mul_comm, Nat.mul_succ]
  have hdiv := Nat.div_add_mod k (u + 1)
  have hlt : k / (u + 1) < n := Nat.div_lt_of_lt_mul (by omega)
  generalize k / (u + 1) = r at hlt hdiv
  refine ⟨n - 1 - r, by omega, by omega, fun hlast h0 => ?_⟩
  obtain rfl : n = r + 1 := by omega
  rw [Nat.mul_succ] at hn
  omega

/-! ### A full-length text gives the source back -/

theorem IsDigitUnit.src_eq_of_text_eq (hu : IsDigitUnit unit u) (hlen : 8 ≤ len) {b' : Block} {src' : Word}
    (h : (b.writeText (renderString unit g src (clampLen len))).text =
      (b'.writeText (renderString unit g src' (clampLen len))).text) : src = src' := by
  refine eq_of_byteAt_eq fun q hq => hu.codes_injective _ _ ?_
  have hq' : q < clampLen len := by rwa [clampLen_of_le hlen]
  refine List.ext_getElem (by simp [hu.length_eq]) fun j hj hj' => ?_
  rw [List.getElem_map, List.getElem_map]
  rw [List.length_map] at hj hj'
  rw [← hu.textAt_digit (b := b) (g := g) hq' (List.getElem?_eq_getElem hj),
    ← hu.textAt_digit (b := b') (g := g) hq' (List.getElem?_eq_getElem hj'), Block.textAt, Block.textAt, h]

end Sys2Proof.Machine
end

section
/-! The obligations about the renders (41_render.md). -/

namespace Sys2Proof.Machine

variable {s t : State} {i : Instr} {p : Precision} {len u : Nat} {g : Bool}

/-! ### What a completed render wrote -/

theorem exec_rndh_block (h : exec (.rndh p len g) s = .next t) :
    t.block = s.block.writeText (renderString hexUnit g (renderSource p s.block.pattern) (clampLen len)) := by
  obtain ⟨_, rfl⟩ := exec_next_iff.mp h
  rfl

theorem exec_rndb_block (h : exec (.rndb p len g) s = .next t) :
    t.block = s.block.writeText (renderString binUnit g (renderSource p s.block.pattern) (clampLen len)) := by
  obtain ⟨_, rfl⟩ := exec_next_iff.mp h
  rfl

/-- A render writes the string of units of its mode. -/
theorem exec_render_block (hi : i = .rndh p len g ∧ u = 2 ∨ i = .rndb p len g ∧ u = 8) (h : exec i s = .next t) :
    ∃ unit, IsDigitUnit unit u ∧
      t.block = s.block.writeText (renderString unit g (renderSource p s.block.pattern) (clampLen len)) := by
  rcases hi with ⟨rfl, rfl⟩ | ⟨rfl, rfl⟩
  · exact ⟨hexUnit, isDigitUnit_hexUnit, exec_rndh_block h⟩
  · exact ⟨binUnit, isDigitUnit_binUnit, exec_rndb_block h⟩

/-! ### The obligations -/

/-- Settles O26: the characters of each unit are the codes of the byte's nibbles. -/
theorem rndhResult : Obligations.RndhResult := by
  intro s p len g src n stride code
  refine ⟨fun hpv => ?_, fun hpv => ⟨_, exec_of_not_pv _ hpv⟩⟩
  have hu := isDigitUnit_hexUnit
  have hsrc : (renderSource p s.block.pattern).toNat = src := renderSource_toNat p s.block.pattern
  have hstride : stride = 2 + if g then 1 else 0 := by cases g <;> rfl
  refine ⟨_, exec_of_pv _ hpv, rfl, hu.textLen, fun q hq => ⟨?_, ?_, fun hg h0 => ?_⟩,
    fun k => textAt_eq_zero_of_textLegal hu.textLegal⟩
  · rw [hstride, ← hsrc, ← highNibble_byteAt_toNat]
    exact (congrArg BitVec.toNat (hu.textAt_digit (j := 0) hq rfl)).trans (hexDigit_code _)
  · rw [hstride, ← hsrc, ← lowNibble_byteAt_toNat]
    exact (congrArg BitVec.toNat (hu.textAt_digit (j := 1) hq rfl)).trans (hexDigit_code _)
  · subst hg
    exact (hu.textAt_separator hq h0.ne').trans (separator_code q)

/-- Settles O27: the characters of each unit are the codes of the byte's bits. -/
theorem rndbResult : Obligations.RndbResult := by
  intro s p len g src n stride
  refine ⟨fun hpv => ?_, fun hpv => ⟨_, exec_of_not_pv _ hpv⟩⟩
  have hu := isDigitUnit_binUnit
  have hsrc : (renderSource p s.block.pattern).toNat = src := renderSource_toNat p s.block.pattern
  have hstride : stride = 8 + if g then 1 else 0 := by cases g <;> rfl
  refine ⟨_, exec_of_pv _ hpv, rfl, hu.textLen, fun q hq => ⟨fun j hj => ?_, fun hg h0 => ?_⟩,
    fun k => textAt_eq_zero_of_textLegal hu.textLegal⟩
  · rw [hstride, ← hsrc, ← getLsbD_byteAt_toNat (by omega), ← bitDigit_code]
    exact congrArg BitVec.toNat (hu.textAt_digit hq (binUnit_getElem? hj))
  · subst hg
    exact (hu.textAt_separator hq h0.ne').trans (separator_code q)

/-- Settles O28: the length of the string, which is that of its units and of one separator between each two. -/
theorem renderLengthLaw : Obligations.RenderLengthLaw := by
  intro s t p len g i u hi h n
  obtain ⟨unit, hu, hblock⟩ := exec_render_block hi h
  obtain ⟨hmax, _⟩ : textLegal t.block := hblock ▸ hu.textLegal
  have hlen : t.block.textLen.toNat = n * u + (if g then n - 1 else 0) := hblock ▸ hu.textLen
  refine ⟨fun h0 => ?_, fun hg _ => ?_, fun hg => ?_, hmax⟩
  · rw [hlen, h0]; simp
  · rw [hlen, if_pos hg]
  · rw [hlen, hg]; rfl

/-- Settles O29: a render sees LEN only through the clamp. -/
theorem renderClampLaw : Obligations.RenderClampLaw := by
  intro s t t8 p len g h9 _
  have hclamp : clampLen len = clampLen 8 := clampLen_of_le (by omega)
  refine ⟨fun h h8 => ?_, fun h h8 => ?_⟩
  · rw [exec_rndh_block h, exec_rndh_block h8, hclamp]
    exact ⟨rfl, rfl⟩
  · rw [exec_rndb_block h, exec_rndb_block h8, hclamp]
    exact ⟨rfl, rfl⟩

/-- Settles O30: place k is place k mod (u + 1) of the unit at k / (u + 1) with its separator. -/
theorem separatorLayoutByCount : Obligations.SeparatorLayoutByCount := by
  intro s t p len i u hi h k hk
  obtain ⟨unit, hu, hblock⟩ := exec_render_block hi h
  rw [hblock] at hk ⊢
  generalize renderSource p s.block.pattern = src at hk ⊢
  rw [hu.textLen, if_pos rfl] at hk
  obtain ⟨q, hq, hdiv, h0⟩ := exists_unit_at_place hk
  have hplace : (clampLen len - 1 - q) * (u + 1) + k % (u + 1) = k := by
    rw [← hdiv, Nat.mul_comm, Nat.div_add_mod]
  simp only [Nat.succ_mod_succ_eq_zero_iff]
  split
  · next hlast =>
    have hchar := hu.textAt_separator (b := s.block) (src := src) hq (h0 hlast)
    rw [hlast] at hplace
    rw [hplace] at hchar
    rw [hchar, hdiv]
    exact separatorLayout_getElem? _ (Nat.min_le_right len 8) q hq (h0 hlast)
  · next hdigit =>
    have hj : k % (u + 1) < u := lt_of_le_of_ne (Nat.le_of_lt_succ (Nat.mod_lt k u.succ_pos)) hdigit
    have hc := List.getElem?_eq_getElem (hj.trans_eq (hu.length_eq (byteAt src q)).symm)
    have hchar := hu.textAt_digit (b := s.block) (g := true) hq hc
    rw [if_pos rfl, hplace] at hchar
    rw [hchar]
    exact hu.isDigitCode_of_mem _ _ (List.getElem_mem _)

/-- Settles O31: a render leaves a legal text. -/
theorem textHoldsOnlyItsCodes : Obligations.TextHoldsOnlyItsCodes := by
  intro s t p len g i hi h k hk
  have hlegal : textLegal t.block := by
    rcases hi with rfl | rfl
    · exact exec_rndh_block h ▸ isDigitUnit_hexUnit.textLegal
    · exact exec_rndb_block h ▸ isDigitUnit_binUnit.textLegal
  refine ⟨fun hlt => ?_, fun hge => textAt_eq_zero_of_textLegal hlegal hge hk⟩
  obtain ⟨_, htext⟩ := hlegal
  simpa [hlt] using htext k hk

/-- Settles O32: the eight units of the text tell the eight bytes of PATTERN. -/
theorem fullRenderDeterminesPattern : Obligations.FullRenderDeterminesPattern := by
  intro s s' t t' len g i hlen hi h h' htext
  have hsrc : renderSource .double s.block.pattern = renderSource .double s'.block.pattern := by
    rcases hi with rfl | rfl
    · rw [exec_rndh_block h, exec_rndh_block h'] at htext
      exact isDigitUnit_hexUnit.src_eq_of_text_eq hlen htext
    · rw [exec_rndb_block h, exec_rndb_block h'] at htext
      exact isDigitUnit_binUnit.src_eq_of_text_eq hlen htext
  simpa only [renderSource, extractLsb_full] using hsrc

end Sys2Proof.Machine
end

section
/-! Which accesses are model faults (60_exceptions.md R121): one equivalence per kind of access, put together as the
rule's table. -/

namespace Sys2Proof.Machine

variable {i : BitVec 3} {k : BitVec 7} {v : Word} {s : State} {b : Block} {a : HostAccess} {rest : List HostAccess}
  {f : Fault}

/-! ### What a completed command leaves (60_exceptions.md R123) -/

@[simp] theorem commandEffect_pattern (i : Instr) (b : Block) : (commandEffect i b).pattern = b.pattern := by
  cases i <;> rfl

/-- Every command makes its component valid: an extract the fields, a render the text (10_state.md R24). -/
theorem commandEffect_fv_or_tv (i : Instr) (b : Block) :
    (commandEffect i b).fv = true ∨ (commandEffect i b).tv = true := by
  cases i with
  | exts | extd => exact .inl rfl
  | rndh | rndb => exact .inr rfl

/-! ### Reads without a value (20_memory.md R43, R45) -/

theorem readReg_error_iff :
    readReg b (regAt i) = .error f ↔
      (i = 0 ∧ b.pv = false ∧ f = .unwrittenPattern (.read 0)) ∨
      ((i = 2 ∨ i = 3 ∨ i = 4 ∨ i = 5) ∧ b.fv = false ∧ f = .unwrittenFields (regAt i)) ∨
      (i = 6 ∧ b.tv = false ∧ f = .unwrittenText .textLen) := by
  obtain ⟨r, rfl⟩ := exists_regIndex_eq i
  rw [regAt_regIndex]
  cases r with
  | status | cmd => simp [readReg, regIndex]
  | pattern => cases hpv : b.pv <;> simp [readReg, regIndex, hpv, eq_comm (a := f)]
  | sign | expRaw | expUnb | mant => cases hfv : b.fv <;> simp [readReg, regIndex, hfv, eq_comm (a := f)]
  | textLen => cases htv : b.tv <;> simp [readReg, regIndex, htv, eq_comm (a := f)]

theorem readText_error_iff :
    readText b k = .error f ↔ k.toNat ≤ 71 ∧ b.tv = false ∧ f = .unwrittenText (.text k) := by
  rcases Nat.lt_or_ge k.toNat 72 with hk | hk
  · have hle : k.toNat ≤ 71 := by omega
    cases htv : b.tv with
    | false => simp [readText_unwritten b k hk htv, hle, eq_comm (a := f)]
    | true => simp [readText_backed b k hk htv]
  · have hgt : ¬k.toNat ≤ 71 := by omega
    simp [readText_unbacked b k hk, hgt]

/-! ### The access that faults -/

theorem step_write_fault_iff (h : s.pending = .write i v :: rest) :
    step s = .fault f ↔ i = 7 ∧ s.block.pv = false ∧ f = .unwrittenPattern (.write 7 v) := by
  by_cases h0 : i = 0
  · subst h0
    simp [step_patternWrite h]
  by_cases h7 : i = 7
  · subst h7
    cases hpv : s.block.pv <;> simp [step_cmdWrite h, hpv, eq_comm (a := f)]
  · simp only [step_write_readOnly h h0 h7, h7, reduceCtorEq, false_and]

theorem step_read_fault_iff (h : s.pending = .read i :: rest) :
    step s = .fault f ↔ readReg s.block (regAt i) = .error f := by
  cases hr : readReg s.block (regAt i) with
  | ok v => simp [step_read_of_ok h hr]
  | error g => simp [step_read_of_error h hr]

theorem step_readText_fault_iff (h : s.pending = .readText k :: rest) :
    step s = .fault f ↔ readText s.block k = .error f := by
  cases hr : readText s.block k with
  | ok c => simp [step_readText_of_ok h hr]
  | error g => simp [step_readText_of_error h hr]

/-- The table of 60_exceptions.md R121: access a uses a value the block does not hold, and f is the record of it. -/
def UnwrittenUse (b : Block) (a : HostAccess) (f : Fault) : Prop :=
  (a = .read 0 ∧ b.pv = false ∧ f = .unwrittenPattern (.read 0)) ∨
  (∃ v, a = .write 7 v ∧ b.pv = false ∧ f = .unwrittenPattern (.write 7 v)) ∨
  (∃ i, (i = 2 ∨ i = 3 ∨ i = 4 ∨ i = 5) ∧ a = .read i ∧ b.fv = false ∧ f = .unwrittenFields (regAt i)) ∨
  (a = .read 6 ∧ b.tv = false ∧ f = .unwrittenText .textLen) ∨
  (∃ k : BitVec 7, k.toNat ≤ 71 ∧ a = .readText k ∧ b.tv = false ∧ f = .unwrittenText (.text k))

/-- A step faults exactly as the table says of the access it takes. -/
theorem step_fault_iff_unwrittenUse (h : s.pending = a :: rest) :
    step s = .fault f ↔ UnwrittenUse s.block a f := by
  cases a with
  | write i v =>
    rw [step_write_fault_iff h]
    simp [UnwrittenUse]
  | read i =>
    rw [step_read_fault_iff h, readReg_error_iff]
    simp only [UnwrittenUse, HostAccess.read.injEq, and_left_comm (b := i = _), exists_eq_left', reduceCtorEq, false_and,
      and_false, exists_false, false_or, or_false]
  | readText k =>
    rw [step_readText_fault_iff h, readText_error_iff]
    simp [UnwrittenUse]
  | reset => simp [step_reset h, UnwrittenUse]

end Sys2Proof.Machine
end

section
/-! The obligations about the model faults (60_exceptions.md). -/

namespace Sys2Proof.Machine

/-- Settles O34: with PATTERN written a command is its effect on the block, which keeps PATTERN and PV. -/
theorem everyCommandCompletes : Obligations.EveryCommandCompletes :=
  fun i _ hpv => ⟨_, exec_of_pv i hpv, (commandEffect_pv i _).trans hpv, commandEffect_pattern i _, rfl, rfl,
    commandEffect_fv_or_tv i _⟩

/-- Settles O43: with no access left there is no fault; the next access faults as the table says. -/
theorem faultsAreExactlyUnwrittenUses : Obligations.FaultsAreExactlyUnwrittenUses := by
  refine ⟨fun s _ => ?_, fun _ => rfl, fun _ => rfl, fun _ => rfl⟩
  cases hp : s.pending with
  | nil => simp [step_nil hp]
  | cons a rest =>
    constructor
    · exact fun h => ⟨a, rest, rfl, (step_fault_iff_unwrittenUse hp).mp h⟩
    · rintro ⟨_, _, heq, huse⟩
      cases heq
      exact (step_fault_iff_unwrittenUse hp).mpr huse

/-- Settles O16: with the list empty there is no access to make. -/
theorem idleHoldsState : Obligations.IdleHoldsState :=
  fun _ => step_nil

/-- Settles O35: a CMD write while PV = 0 is in the table of faults, with UNWRITTEN_PATTERN. -/
theorem commandBeforePatternFaults : Obligations.CommandBeforePatternFaults :=
  fun _ _ _ h hpv => ⟨_, (step_write_fault_iff h).mpr ⟨rfl, hpv, rfl⟩, rfl⟩

end Sys2Proof.Machine
end

section
/-! An extract and a render write different parts of the block, and a reset leaves one block with no value in it
(70_reset_and_hazards.md R140 to R144). -/

namespace Sys2Proof.Machine

variable {e r : Instr} {s t : State} {rest : List HostAccess}

/-! ### Extract and render in either order (70_reset_and_hazards.md R144) -/

theorem Block.writeFields_writeText_comm (p : Precision) (f : Fields) (str : List Char) (b : Block) :
    (b.writeText str).writeFields p f = (b.writeFields p f).writeText str := rfl

/-- Neither command writes PATTERN, so each finds what it would have found first; and their writes are apart. -/
theorem commandEffect_extract_render_comm {p : Precision} {len : Nat} {g : Bool} (he : e = .exts ∨ e = .extd)
    (hr : r = .rndh p len g ∨ r = .rndb p len g) (b : Block) :
    commandEffect e (commandEffect r b) = commandEffect r (commandEffect e b) := by
  obtain ⟨q, f, hextract⟩ := commandEffect_extract_of_pattern he b.pattern
  obtain ⟨str, hrender⟩ := commandEffect_render_of_pattern hr b.pattern
  calc commandEffect e (commandEffect r b)
      = (b.writeText str).writeFields q f := by rw [hrender b rfl, hextract (b.writeText str) rfl]
    _ = (b.writeFields q f).writeText str := b.writeFields_writeText_comm q f str
    _ = commandEffect r (commandEffect e b) := by rw [hextract b rfl, hrender (b.writeFields q f) rfl]

/-! ### The block in reset (70_reset_and_hazards.md R140) -/

@[simp] theorem Block.reset_status : Block.reset.status = 0 := rfl

/-- In reset a location without a value is every one but STATUS and CMD (10_state.md R31, R36). -/
theorem hasValue_reset {i : BitVec 3} (hstatus : i ≠ 1) (hcmd : i ≠ 7) : hasValue Block.reset (regAt i) = false := by
  obtain ⟨reg, rfl⟩ := exists_regIndex_eq i
  rw [regAt_regIndex]
  cases reg with
  | status => exact absurd rfl hstatus
  | cmd => exact absurd rfl hcmd
  | pattern | sign | expRaw | expUnb | mant | textLen => rfl

theorem step_read_after_reset {i : BitVec 3} (hb : s.block = Block.reset) (hp : s.pending = .read i :: rest)
    (hstatus : i ≠ 1) (hcmd : i ≠ 7) : ∃ f, step s = .fault f := by
  obtain ⟨f, hf⟩ := readReg_of_not_hasValue (hasValue_reset hstatus hcmd)
  exact ⟨f, step_read_of_error hp (hb ▸ hf)⟩

theorem step_readText_after_reset {k : BitVec 7} (hb : s.block = Block.reset) (hp : s.pending = .readText k :: rest)
    (hk : k.toNat < 72) : ∃ f, step s = .fault f :=
  ⟨_, step_readText_of_error hp (readText_unwritten _ k hk (by rw [hb]; rfl))⟩

theorem block_eq_reset_of_step (hp : s.pending = .reset :: rest) (h : step s = .next t) : t.block = Block.reset := by
  cases (step_reset hp).symm.trans h
  rfl

theorem pending_of_step_reset (hp : s.pending = .reset :: rest) (h : step s = .next t) : t.pending = rest := by
  cases (step_reset hp).symm.trans h
  rfl

end Sys2Proof.Machine
end

section
/-! The obligations about reset and the order of accesses (70_reset_and_hazards.md). -/

namespace Sys2Proof.Machine

/-- Settles O38: both orders complete, since no command changes PV, and their effects on the block commute. -/
theorem extractAndRenderCommute : Obligations.ExtractAndRenderCommute := by
  intro s t u e r p len g he hr hst htu
  obtain ⟨hpv, rfl⟩ := exec_next_iff.mp hst
  obtain ⟨_, rfl⟩ := exec_next_iff.mp htu
  refine ⟨_, exec_of_pv r hpv, exec_next_iff.mpr ⟨(commandEffect_pv r _).trans hpv, ?_⟩⟩
  exact congrArg (fun b => { s with block := b }) (commandEffect_extract_render_comm he hr s.block).symm

/-- Settles O40: the state is the one of `step_reset`, in which no valid bit is set. -/
theorem resetLeavesNoValue : Obligations.ResetLeavesNoValue := fun _ _ hp =>
  ⟨_, step_reset hp, rfl, rfl, Block.reset_status, rfl, rfl, rfl, rfl, rfl,
    fun _ hstatus hcmd => step_read_after_reset rfl rfl hstatus hcmd,
    fun _ hk => step_readText_after_reset rfl rfl hk⟩

/-- Settles O41: each reset leaves the reset block, and its step does not look at the block. -/
theorem resetIsIdempotent : Obligations.ResetIsIdempotent := by
  refine ⟨fun s t u rest hp hst htu => ?_, fun s b rest hp => ?_⟩
  · rw [block_eq_reset_of_step (pending_of_step_reset hp hst) htu, block_eq_reset_of_step hp hst]
  · rw [step_reset hp, step_reset (s := { s with block := b }) hp]

/-- Settles O42: the block of power-on is the reset block. -/
theorem powerOnIsReset : Obligations.PowerOnIsReset :=
  fun _ _ _ hp h => block_eq_reset_of_step hp h

end Sys2Proof.Machine
end
